-- ==== Sys2Proof/Word.lean ====
section
/-! DEFINITION. The word of the block: every register, operand, address and line number is an
unsigned 16-bit integer (spec/00_scope.md R8). -/

namespace Sys2Proof

/-- A 16-bit unsigned value (00_scope.md R6 `W`, R8). -/
abbrev Word := BitVec 16

end Sys2Proof
end

