-- ==== Sys2Proof/Config.lean ====
section
/-! DEFINITION. The fixed values of the block (spec/00_scope.md R6) and its open parameter
`HOST_MEM_INTERLEAVE` (R7). The other two parameters of R7 are held in the state: `PROG_LEN` is the
length of the program, `MEM0` is the memory a run starts with. -/

namespace Sys2Proof

/-- `EVAL_DEPTH`: capacity of the evaluation stack (00_scope.md R6). -/
abbrev Config.evalDepth : Nat := 20

/-- `CALL_DEPTH`: capacity of the call stack (00_scope.md R6). -/
abbrev Config.callDepth : Nat := 20

/-- `SLOTS`: cells per memory region (00_scope.md R6). -/
abbrev Config.slots : Nat := 26

/-- `SENTINEL`: the line a RET with an empty call stack returns (00_scope.md R6). -/
abbrev Config.sentinel : Word := 65535#16

/-- `EDISC_MAX`: where the overflow-discard counter saturates (00_scope.md R6). -/
abbrev Config.ediscMax : Nat := 65535

/-- The largest `PROG_LEN` (00_scope.md R7). -/
abbrev Config.maxProgLen : Nat := 65535

/-- `HOST_MEM_INTERLEAVE` (00_scope.md R7, 93_implementation_defined.md U7): whether the environment
may change cells between two steps of one scan. The spec leaves it open, so it has no body and every
claim holds for both values (log 8). -/
opaque Config.hostMemInterleave : Bool

end Sys2Proof
end

