-- ==== Sys2Proof/Machine/State.lean ====
section
/-! DEFINITION. The state of the block, of the cells behind its memory interface and of the program
store (spec/10_state.md), as plain data, with the host operations still to be performed
(40_engine.md R83), and the state after reset (R29, 70_reset_and_hazards.md R131). -/

namespace Sys2Proof.Machine

/-- The four memory regions (20_memory.md R34). -/
inductive Region where
  | bitBankA | bitBankB | wordBankA | wordBankB
deriving DecidableEq, Repr

/-- An entry of the evaluation stack (10_state.md R20): the encoded word of the deferred instruction
and the accumulator saved when the group opened. -/
structure EvalEntry where
  w : Word
  a : Word
deriving DecidableEq, Repr

/-- A line of the program store (10_state.md R28): the encoded word and the operand. -/
structure ProgLine where
  w : Word
  opr : Word
deriving DecidableEq, Repr

/-- The cells of the memory provider, each at its five-digit address, in one canonical form
(`Memory.wf`): a cell that is not listed reads as zero, and a bit cell that is true holds 1. The
hardware has no bytes (20_memory.md R45), so a cell holds a 16-bit value (log 7). -/
structure Memory where
  cells : List (Nat × Word)
deriving DecidableEq, Repr

/-- The run state of the scan sequencer (10_state.md R25). -/
inductive SeqState where
  | idle | run
deriving DecidableEq, Repr

/-- The host operations of 40_engine.md R83. -/
inductive HostOp where
  /-- `init(memory_interface)` (70_reset_and_hazards.md R131). `none` binds the provider that is
  bound already, `some cells` a different one whose nonzero cells are given as pairs of address and
  value (R133, log 20). -/
  | init (provider : Option (List (Word × Word)))
  /-- `start_scan` (R79). -/
  | startScan
  /-- `execute(w, opr, line)` (R84). -/
  | execute (w opr line : Word)
  /-- `get_accumulator()` (R85). -/
  | getAccumulator
  /-- `parse(token)` (30_encoding.md R61). -/
  | parse (token : List Char)
  /-- The environment changes the cell at an address (R86). -/
  | writeCell (addr v : Word)
  /-- The caller replaces the program (R83, 20_memory.md R49). -/
  | replaceProgram (lines : List ProgLine)
  /-- The host does nothing at this step boundary: while IDLE it declines to start a scan (R82), while
  RUN the sequencer takes its step (log 1). -/
  | pass
deriving DecidableEq, Repr

/-- Everything the spec gives the machine (10_state.md R15 to R28), and two fields of the model's own,
`pending` and `reply`. -/
structure State where
  /-- `ACC` (R15). -/
  acc : Word
  /-- `ESTK[0..ESP-1]`, top first (R20). -/
  estk : List EvalEntry
  /-- `CSTK[0..CSP-1]`, top first (R22). -/
  cstk : List Word
  /-- `EDISC` (R23). -/
  edisc : Word
  /-- `INIT` (R24). -/
  init : Bool
  /-- `SEQ` (R25). -/
  seq : SeqState
  /-- `LINE` (R19). A meaning leaves `NEXT` here. -/
  line : Word
  /-- The cells of `BITA`, `BITB`, `WORDA`, `WORDB` (R27). -/
  mem : Memory
  /-- `PROG[0..PROG_LEN-1]` (R28). -/
  prog : List ProgLine
  /-- The model's own: host operations not yet performed, next first (log 1). -/
  pending : List HostOp
  /-- The model's own: what the last host operation returned, if it returned anything (log 2). -/
  reply : Option Word
deriving DecidableEq, Repr

/-- `ESP` (R20). -/
abbrev State.esp (s : State) : Nat := s.estk.length

/-- `CSP` (R22). -/
abbrev State.csp (s : State) : Nat := s.cstk.length

/-- `PROG_LEN` (00_scope.md R7). -/
abbrev State.progLen (s : State) : Nat := s.prog.length

/-- `ESTK[i]`, slot 0 at the bottom; a slot at or above `ESP` holds no value (R20, R30). -/
def State.estkSlot (s : State) (i : Nat) : Option EvalEntry := s.estk.reverse[i]?

/-- `CSTK[i]`, slot 0 at the bottom; a slot at or above `CSP` holds no value (R22, R30). -/
def State.cstkSlot (s : State) (i : Nat) : Option Word := s.cstk.reverse[i]?

/-- The block raises no fault: every error condition is recovered inside the step that meets it
(60_exceptions.md R120, R121), so this type has no constructor (log 23). -/
inductive Fault where
deriving DecidableEq, Repr

/-- Why a step has no result. -/
inductive Refusal where
  /-- Raised by an arm of `exec` whose instruction has no meaning yet; no arm is left. Safe. -/
  | notModelled (mnemonic : String)
  /-- Raised by an execute step, by `start_scan` and by a direct `execute` while `INIT` = 0: no
  provider is bound (10_state.md R24, 40_engine.md R69, R83). Safe: the spec refuses it too. -/
  | notInitialised
  /-- Raised by `replaceProgram` for a program longer than 65535 lines, which is outside the range of
  `PROG_LEN` (00_scope.md R7, log 13). Safe. -/
  | programTooLong
deriving DecidableEq, Repr

/-- The machine right after reset, which performs `init` (10_state.md R29, 70_reset_and_hazards.md
R131, R132). `ACC`, both stacks, `EDISC`, `INIT` and `SEQ` are the spec's values; `LINE`, the cells and
the program are the model's choice (logs 4, 5, 6). -/
def State.reset : State where
  acc := 0#16
  estk := []
  cstk := []
  edisc := 0#16
  init := true
  seq := .idle
  line := 0#16
  mem := ⟨[]⟩
  prog := []
  pending := []
  reply := none

end Sys2Proof.Machine
end

