-- ==== Sys2Proof/Machine/Assembler.lean ====
section
/-! DEFINITION. The assembler `parse` (spec/30_encoding.md R61 to R66): one mnemonic token to one
instruction word. A token is its list of characters (log 18). It reads and writes no state. -/

namespace Sys2Proof.Machine

/-- The flag character `{` (R64). -/
def openBrace : Char := Char.ofNat 123

/-- The close-group token `}` (R62). -/
def closeBrace : Char := Char.ofNat 125

/-- The ordered list of mnemonics with their opcodes (R62). -/
def mnemonics : List (List Char × Word) :=
  [(['L', 'O', 'A', 'D'], 1#16), (['S', 'T', 'O', 'R'], 2#16), (['S', 'E', 'T'], 3#16),
   (['R', 'S', 'T'], 4#16), (['A', 'N', 'D'], 5#16), (['O', 'R'], 6#16), (['X', 'O', 'R'], 7#16),
   (['A', 'D', 'D'], 8#16), (['S', 'U', 'B'], 9#16), (['M', 'U', 'L'], 10#16),
   (['D', 'I', 'V'], 11#16)]
  ++ [(['G', 'T'], 12#16), (['G', 'E'], 13#16), (['E', 'Q'], 14#16), (['N', 'E'], 15#16),
   (['L', 'E'], 16#16), (['L', 'T'], 17#16), (['J', 'U', 'M', 'P'], 18#16),
   (['C', 'A', 'L', 'L'], 19#16), (['R', 'E', 'T'], 20#16), ([closeBrace], 21#16)]

/-- The opcode of the first mnemonic in the list that the token begins with, 0 if there is none
(R62). -/
def firstMatch (table : List (List Char × Word)) (token : List Char) : Word :=
  match table with
  | [] => 0#16
  | (m, code) :: rest => if m.isPrefixOf token then code else firstMatch rest token

/-- The part of the token after its first `_`, nothing if it has none (R64). -/
def flagPart : List Char → List Char
  | [] => []
  | c :: rest => if c = '_' then rest else flagPart rest

/-- The flag bits the characters set; every other character is ignored (R64). -/
def scanFlags : List Char → Word
  | [] => 0#16
  | c :: rest =>
    let bit : Word :=
      if c = 'I' then 0x0100#16
      else if c = 'N' then 0x0200#16
      else if c = 'C' then 0x0400#16
      else if c = openBrace then 0x0800#16
      else 0#16
    bit ||| scanFlags rest

/-- `parse(token)` (R61). -/
def parse (token : List Char) : Word := firstMatch mnemonics token ||| scanFlags (flagPart token)

/-- A program of tokens and operands, one line each (R66), as the caller supplies it to the program store
(10_state.md R28). -/
def assemble (lines : List (List Char × Word)) : List ProgLine :=
  lines.map fun l => ⟨parse l.1, l.2⟩

end Sys2Proof.Machine
end

