-- ==== Sys2Proof/Syntax.lean ====
section
/-! DEFINITION. The instructions: one constructor per row of spec/opcode_table.json. Every
constructor holds the four flag bits, the reserved field and the operand of its line, used or not,
because a group open saves the whole word (spec/40_engine.md R76). -/

namespace Sys2Proof

/-- The bits of an instruction word above the opcode, bits 15 down to 8 (30_encoding.md R51): the
reserved field and the decoded-flag register (10_state.md R17). -/
structure FlagBits where
  /-- `RSV`, bits 15:12: no effect (R55). -/
  rsv : BitVec 4
  /-- `FG`, bit 11: BeginGroup. -/
  fg : Bool
  /-- `FC`, bit 10: Conditional. -/
  fc : Bool
  /-- `FN`, bit 9: Negate. -/
  fn : Bool
  /-- `FI`, bit 8: Immediate. -/
  fi : Bool
deriving DecidableEq, Repr

/-- The thirteen binary operators, opcodes 5 to 17 (44_binary_operators.md). -/
inductive BinOp where
  | and | or | xor | add | sub | mul | div | gt | ge | eq | ne | le | lt
deriving DecidableEq, Repr

/-- One program line, decoded: the flag bits and the operand of each instruction. -/
inductive Instr where
  /-- NOP (R88), and every undefined opcode 22..255 (R91). -/
  | nop (f : FlagBits) (opr : Word)
  /-- LOAD with G clear (R95). -/
  | load (f : FlagBits) (opr : Word)
  /-- LOAD with G set, the table's LOAD_2 (R97). -/
  | loadGroup (f : FlagBits) (opr : Word)
  /-- STOR with G clear (R96). -/
  | stor (f : FlagBits) (opr : Word)
  /-- STOR with G set, the table's STOR_2 (R98). -/
  | storGroup (f : FlagBits) (opr : Word)
  /-- SET (R89). -/
  | set (f : FlagBits) (opr : Word)
  /-- RST (R90). -/
  | rst (f : FlagBits) (opr : Word)
  /-- AND (R101). -/
  | and (f : FlagBits) (opr : Word)
  /-- OR (R102). -/
  | or (f : FlagBits) (opr : Word)
  /-- XOR (R103). -/
  | xor (f : FlagBits) (opr : Word)
  /-- ADD (R104). -/
  | add (f : FlagBits) (opr : Word)
  /-- SUB (R105). -/
  | sub (f : FlagBits) (opr : Word)
  /-- MUL (R106). -/
  | mul (f : FlagBits) (opr : Word)
  /-- DIV (R107). -/
  | div (f : FlagBits) (opr : Word)
  /-- GT (R108). -/
  | gt (f : FlagBits) (opr : Word)
  /-- GE (R109). -/
  | ge (f : FlagBits) (opr : Word)
  /-- EQ (R110). -/
  | eq (f : FlagBits) (opr : Word)
  /-- NE (R111). -/
  | ne (f : FlagBits) (opr : Word)
  /-- LE (R112). -/
  | le (f : FlagBits) (opr : Word)
  /-- LT (R113). -/
  | lt (f : FlagBits) (opr : Word)
  /-- JUMP (R92). -/
  | jump (f : FlagBits) (opr : Word)
  /-- CALL (R93). -/
  | call (f : FlagBits) (opr : Word)
  /-- RET (R94). -/
  | ret (f : FlagBits) (opr : Word)
  /-- Close-group, the table's ROW (R114). -/
  | close (f : FlagBits) (opr : Word)
deriving DecidableEq, Repr

end Sys2Proof
end

