-- ==== Sys2Proof/WellFormed.lean ====
section
/-! DEFINITION. Which terms of `Instr` stand for a word. Every combination of flags with every
opcode is well formed (spec/30_encoding.md R52); the one check is that the BeginGroup flag agrees
with the row it selects for LOAD and STOR (40_engine.md R71). -/

namespace Sys2Proof

/-- The BeginGroup flag agrees with the constructor: clear in LOAD and STOR, set in their grouped
forms, free elsewhere (opcode_table.json masks 0x08FF and 0x00FF). -/
def Instr.wellFormed : Instr → Bool
  | .load f _ => !f.fg
  | .loadGroup f _ => f.fg
  | .stor f _ => !f.fg
  | .storGroup f _ => f.fg
  | .nop _ _ => true
  | .set _ _ => true
  | .rst _ _ => true
  | .and _ _ => true
  | .or _ _ => true
  | .xor _ _ => true
  | .add _ _ => true
  | .sub _ _ => true
  | .mul _ _ => true
  | .div _ _ => true
  | .gt _ _ => true
  | .ge _ _ => true
  | .eq _ _ => true
  | .ne _ _ => true
  | .le _ _ => true
  | .lt _ _ => true
  | .jump _ _ => true
  | .call _ _ => true
  | .ret _ _ => true
  | .close _ _ => true

end Sys2Proof
end

