-- ==== Sys2Proof/Decode.lean ====
section
/-! DEFINITION. Decoding a program line and encoding it back (spec/30_encoding.md R50 to R60). No
word is refused: opcode values 22 to 255 decode as NOP (R54, R60). What is refused, by name, is a
list of words that is not one line. -/

namespace Sys2Proof

/-- `OP = IR[7:0]` (R51). -/
def opField (w : Word) : BitVec 8 := w.extractLsb' 0 8

/-- `FI = IR[8]`, `FN = IR[9]`, `FC = IR[10]`, `FG = IR[11]` and the reserved field `IR[15:12]`
(R51). -/
def flagBitsOf (w : Word) : FlagBits where
  rsv := w.extractLsb' 12 4
  fg := w.getLsbD 11
  fc := w.getLsbD 10
  fn := w.getLsbD 9
  fi := w.getLsbD 8

/-- The pattern `rrrr GCNI oooooooo` (R51). -/
def irWord (op : BitVec 8) (f : FlagBits) : Word :=
  f.rsv ++ BitVec.ofBool f.fg ++ BitVec.ofBool f.fc ++ BitVec.ofBool f.fn ++ BitVec.ofBool f.fi ++ op

/-- Opcode of a binary operator (R53). -/
def BinOp.code : BinOp → BitVec 8
  | .and => 5#8
  | .or => 6#8
  | .xor => 7#8
  | .add => 8#8
  | .sub => 9#8
  | .mul => 10#8
  | .div => 11#8
  | .gt => 12#8
  | .ge => 13#8
  | .eq => 14#8
  | .ne => 15#8
  | .le => 16#8
  | .lt => 17#8

/-- The binary operator of an opcode value, if it is one of 5..17 (R53). -/
def BinOp.ofCode (op : BitVec 8) : Option BinOp :=
  match op.toNat with
  | 5 => some .and
  | 6 => some .or
  | 7 => some .xor
  | 8 => some .add
  | 9 => some .sub
  | 10 => some .mul
  | 11 => some .div
  | 12 => some .gt
  | 13 => some .ge
  | 14 => some .eq
  | 15 => some .ne
  | 16 => some .le
  | 17 => some .lt
  | _ => none

/-- The instruction of a binary operator. -/
def BinOp.instr : BinOp → FlagBits → Word → Instr
  | .and => .and
  | .or => .or
  | .xor => .xor
  | .add => .add
  | .sub => .sub
  | .mul => .mul
  | .div => .div
  | .gt => .gt
  | .ge => .ge
  | .eq => .eq
  | .ne => .ne
  | .le => .le
  | .lt => .lt

/-- `Decode_IR` (R60) on the word of a line, with its operand (R50): dispatch is by the opcode alone,
and for LOAD and STOR the BeginGroup flag selects the grouped form (40_engine.md R71). -/
def decodeLine (w opr : Word) : Instr :=
  let f := flagBitsOf w
  match (opField w).toNat with
  | 1 => if f.fg then .loadGroup f opr else .load f opr
  | 2 => if f.fg then .storGroup f opr else .stor f opr
  | 3 => .set f opr
  | 4 => .rst f opr
  | 5 => .and f opr
  | 6 => .or f opr
  | 7 => .xor f opr
  | 8 => .add f opr
  | 9 => .sub f opr
  | 10 => .mul f opr
  | 11 => .div f opr
  | 12 => .gt f opr
  | 13 => .ge f opr
  | 14 => .eq f opr
  | 15 => .ne f opr
  | 16 => .le f opr
  | 17 => .lt f opr
  | 18 => .jump f opr
  | 19 => .call f opr
  | 20 => .ret f opr
  | 21 => .close f opr
  | _ => .nop f opr

/-- Why a list of words is not one program line. -/
inductive DecodeError where
  /-- There is no instruction word. -/
  | noWord
  /-- The operand word is missing. -/
  | noOperand
  /-- Words follow the operand: every line is one word plus one operand (R50). -/
  | trailingWords
deriving DecidableEq, Repr

/-- Decoding of a list of words: one word and one operand (R50), total, rejecting by name. -/
def decode : List Word → Except DecodeError Instr
  | [] => .error .noWord
  | [_] => .error .noOperand
  | [w, opr] => .ok (decodeLine w opr)
  | _ :: _ :: _ :: _ => .error .trailingWords

/-- Opcode value of an instruction (R53). -/
def Instr.opcode : Instr → BitVec 8
  | .nop _ _ => 0#8
  | .load _ _ => 1#8
  | .loadGroup _ _ => 1#8
  | .stor _ _ => 2#8
  | .storGroup _ _ => 2#8
  | .set _ _ => 3#8
  | .rst _ _ => 4#8
  | .and _ _ => 5#8
  | .or _ _ => 6#8
  | .xor _ _ => 7#8
  | .add _ _ => 8#8
  | .sub _ _ => 9#8
  | .mul _ _ => 10#8
  | .div _ _ => 11#8
  | .gt _ _ => 12#8
  | .ge _ _ => 13#8
  | .eq _ _ => 14#8
  | .ne _ _ => 15#8
  | .le _ _ => 16#8
  | .lt _ _ => 17#8
  | .jump _ _ => 18#8
  | .call _ _ => 19#8
  | .ret _ _ => 20#8
  | .close _ _ => 21#8

/-- The flag bits of an instruction. -/
def Instr.flagBits : Instr → FlagBits
  | .nop f _ => f
  | .load f _ => f
  | .loadGroup f _ => f
  | .stor f _ => f
  | .storGroup f _ => f
  | .set f _ => f
  | .rst f _ => f
  | .and f _ => f
  | .or f _ => f
  | .xor f _ => f
  | .add f _ => f
  | .sub f _ => f
  | .mul f _ => f
  | .div f _ => f
  | .gt f _ => f
  | .ge f _ => f
  | .eq f _ => f
  | .ne f _ => f
  | .le f _ => f
  | .lt f _ => f
  | .jump f _ => f
  | .call f _ => f
  | .ret f _ => f
  | .close f _ => f

/-- The operand `OPR` of an instruction's line. -/
def Instr.operand : Instr → Word
  | .nop _ opr => opr
  | .load _ opr => opr
  | .loadGroup _ opr => opr
  | .stor _ opr => opr
  | .storGroup _ opr => opr
  | .set _ opr => opr
  | .rst _ opr => opr
  | .and _ opr => opr
  | .or _ opr => opr
  | .xor _ opr => opr
  | .add _ opr => opr
  | .sub _ opr => opr
  | .mul _ opr => opr
  | .div _ opr => opr
  | .gt _ opr => opr
  | .ge _ opr => opr
  | .eq _ opr => opr
  | .ne _ opr => opr
  | .le _ opr => opr
  | .lt _ opr => opr
  | .jump _ opr => opr
  | .call _ opr => opr
  | .ret _ opr => opr
  | .close _ opr => opr

/-- The two words of an instruction's line: the encoded word (R51, R53) and the operand (R50). -/
def encode (i : Instr) : List Word := [irWord i.opcode i.flagBits, i.operand]

/-- The instruction the decoder reads from `w`, whose bits 15..0 are the instruction word and bits
31..16 the operand, every bit at `nbits` or above being 0. A line is two words (R50), so more than 32
bits are refused (log 15). -/
def decodeTableWord (nbits w : Nat) : Option Instr :=
  if nbits ≤ 32 then
    (decode [BitVec.ofNat 16 (w % 2 ^ nbits), BitVec.ofNat 16 (w % 2 ^ nbits / 2 ^ 16)]).toOption
  else none

end Sys2Proof
end

