-- ==== Sys2Proof/Machine/Memory.lean ====
section
/-! DEFINITION. The address decoder and the two access primitives (spec/20_memory.md). -/

namespace Sys2Proof.Machine

/-- `zext_16` of a boolean (00_scope.md R8). -/
def zext16 (b : Bool) : Word := if b then 1#16 else 0#16

/-- The ten-thousands digit that selects a region (R32, R34). -/
def Region.digit : Region → Nat
  | .bitBankA => 0
  | .bitBankB => 1
  | .wordBankA => 3
  | .wordBankB => 4

/-- Regions 0 and 1 are bit banks (R32). -/
def Region.isBit : Region → Bool
  | .bitBankA => true
  | .bitBankB => true
  | .wordBankA => false
  | .wordBankB => false

/-- The address decoder (R33) on a number: a region and an index 0..25, or nothing. -/
def decodeNat (addr : Nat) : Option (Region × Nat) :=
  let slot := addr % 10000
  if slot < 1 ∨ Config.slots < slot then none
  else
    match addr / 10000 with
    | 0 => some (.bitBankA, slot - 1)
    | 1 => some (.bitBankB, slot - 1)
    | 3 => some (.wordBankA, slot - 1)
    | 4 => some (.wordBankB, slot - 1)
    | _ => none

/-- `Decode(addr)` (R33); `none` is INVALID. -/
def decodeAddr (addr : Word) : Option (Region × Nat) := decodeNat addr.toNat

/-- The five-digit address of a cell (R47), under which the memory lists it. -/
def cellKey (r : Region) (i : Nat) : Nat := 10000 * r.digit + i + 1

/-- What a cell that is not listed reads as (log 5). -/
def Memory.unlisted : Word := 0#16

/-- The value listed under an address in a list of cells. -/
def lookupCell (cells : List (Nat × Word)) (k : Nat) : Word :=
  match cells with
  | [] => Memory.unlisted
  | (j, v) :: rest => if j = k then v else lookupCell rest k

/-- A cell put before the first cell with a larger address. -/
def insertCell (k : Nat) (v : Word) : List (Nat × Word) → List (Nat × Word)
  | [] => [(k, v)]
  | (j, u) :: rest => if k < j then (k, v) :: (j, u) :: rest else (j, u) :: insertCell k v rest

/-- The contents of the cell at an address. -/
def Memory.read (m : Memory) (k : Nat) : Word := lookupCell m.cells k

/-- The memory with one cell changed, in the canonical form. -/
def Memory.write (m : Memory) (k : Nat) (v : Word) : Memory :=
  let others := m.cells.filter fun c => c.1 != k
  if v = Memory.unlisted then ⟨others⟩ else ⟨insertCell k v others⟩

/-- A listed cell exists (R35), does not hold what an unlisted one reads as, and holds 1 in a bit
bank. -/
def cellOk (c : Nat × Word) : Bool :=
  c.2 != Memory.unlisted &&
    match decodeNat c.1 with
    | none => false
    | some (r, _) => !r.isBit || c.2 == 1#16

/-- The canonical form of a memory: addresses strictly rising, and every listed cell `cellOk`. -/
def Memory.wf (m : Memory) : Bool :=
  decide (m.cells.Pairwise fun c d => c.1 < d.1) && m.cells.all cellOk

/-- `BANK(region)[i]` of a bit bank (10_state.md R27). -/
def Memory.bit (m : Memory) (r : Region) (i : Nat) : Bool := m.read (cellKey r i) != 0#16

/-- `BANK(region)[i]` of a word bank (10_state.md R27). -/
def Memory.word (m : Memory) (r : Region) (i : Nat) : Word := m.read (cellKey r i)

/-- `MemGet(addr, inv)` (R38, R39). -/
def memGet (m : Memory) (addr : Word) (inv : Bool) : Word :=
  match decodeAddr addr with
  | none => 0#16
  | some (r, i) =>
    if r.isBit then
      let v := zext16 (m.bit r i)
      if inv then 1#16 - v else v
    else
      let v := m.word r i
      if inv then ~~~v else v

/-- `MemSet(addr, v, inv)` (R40, R41). -/
def memSet (m : Memory) (addr v : Word) (inv : Bool) : Memory :=
  match decodeAddr addr with
  | none => m
  | some (r, i) =>
    if r.isBit then m.write (cellKey r i) (zext16 ((v != 0#16) ^^ inv))
    else m.write (cellKey r i) (if inv then ~~~v else v)

end Sys2Proof.Machine
end

