-- ==== Sys2Proof/Machine/Alu.lean ====
section
/-! DEFINITION. `apply(op, a, b, neg)`, the function of the thirteen binary operators
(spec/44_binary_operators.md R99, R101 to R113). -/

namespace Sys2Proof.Machine

/-- The function of each operator on its two operands (R101 to R113). All values are unsigned. -/
def binResult (op : BinOp) (a b : Word) : Word :=
  match op with
  | .and => a &&& b
  | .or => a ||| b
  | .xor => a ^^^ b
  | .add => a + b
  | .sub => a - b
  | .mul => a * b
  | .div => if b = 0#16 then 0#16 else a / b
  | .gt => zext16 (decide (a.toNat > b.toNat))
  | .ge => zext16 (decide (a.toNat ≥ b.toNat))
  | .eq => zext16 (decide (a = b))
  | .ne => zext16 (decide (a ≠ b))
  | .le => zext16 (decide (a.toNat ≤ b.toNat))
  | .lt => zext16 (decide (a.toNat < b.toNat))

/-- `b`, or its bitwise complement with N, even for the comparisons (R99). -/
def negated (b : Word) (neg : Bool) : Word := if neg then ~~~b else b

/-- `apply(op, a, b, neg)` (R99). -/
def applyOp (op : BinOp) (a b : Word) (neg : Bool) : Word := binResult op a (negated b neg)

end Sys2Proof.Machine
end

