-- ==== Sys2Proof/Machine/Flags.lean ====
section
/-! DEFINITION. The two conditions computed from the accumulator (spec/40_engine.md R77). The block has
no status flags and no instruction writes one (10_state.md R18). -/

namespace Sys2Proof.Machine

/-- `Cond(N) = (ACC != 0) xor N`: SET and RST act when it is true (R77). -/
def accCond (s : State) (n : Bool) : Bool := (s.acc != 0#16) ^^ n

/-- `Gate = (FC = 0) or Cond(FN)`: JUMP, CALL and RET act when it is true (R77). -/
def gate (s : State) (f : FlagBits) : Bool := !f.fc || accCond s f.fn

end Sys2Proof.Machine
end

