-- ==== Sys2Proof/Machine/Operands.lean ====
section
/-! DEFINITION. What an instruction reads through its operand (spec/30_encoding.md R56, R57). Every
other use of the operand (the address of a store, the line of a transfer, the first value of a LOAD
or STOR group) takes it as it is. -/

namespace Sys2Proof.Machine

/-- The value LOAD with G clear takes (43_load_store.md R95): the literal with I, else the cell, its
read inverted with N. -/
def loadValue (f : FlagBits) (opr : Word) (s : State) : Word :=
  if f.fi then opr else memGet s.mem opr f.fn

/-- The value a binary operator takes (44_binary_operators.md R100): the literal with I, else the
cell. N never inverts this read. -/
def binValue (f : FlagBits) (opr : Word) (s : State) : Word :=
  if f.fi then opr else memGet s.mem opr false

end Sys2Proof.Machine
end

