-- ==== Sys2Proof/Machine/Ops.lean ====
section
/-! DEFINITION. What the meanings share: the updates of the state, the two stacks (spec/40_engine.md
R72 to R75), the group open (R76), the execute step around every instruction (R69, R70), the common
rule of the binary operators (44_binary_operators.md R100) and the close-group (45_close_group.md R114
to R118).

The block takes no exception and returns from none (60_exceptions.md R121, R124, R125): nothing is
saved, no mode changes and no handler address exists, so there is no such operation here. -/

namespace Sys2Proof.Machine

/-- `ACC <- v`. -/
def State.setAcc (s : State) (v : Word) : State := { s with acc := v }

/-- The evaluation stack replaced. -/
def State.setEstk (s : State) (es : List EvalEntry) : State := { s with estk := es }

/-- The call stack replaced. -/
def State.setCstk (s : State) (ls : List Word) : State := { s with cstk := ls }

/-- `EDISC <- v`. -/
def State.setEdisc (s : State) (v : Word) : State := { s with edisc := v }

/-- `SEQ <- q`. -/
def State.setSeq (s : State) (q : SeqState) : State := { s with seq := q }

/-- `LINE <- l`; inside a meaning, `NEXT <- l`. -/
def State.setLine (s : State) (l : Word) : State := { s with line := l }

/-- The cells replaced. -/
def State.setMem (s : State) (m : Memory) : State := { s with mem := m }

/-- The program store replaced. -/
def State.setProg (s : State) (p : List ProgLine) : State := { s with prog := p }

/-- The operations still to be performed replaced. -/
def State.setPending (s : State) (ops : List HostOp) : State := { s with pending := ops }

/-- What the last host operation returned replaced. -/
def State.setReply (s : State) (r : Option Word) : State := { s with reply := r }

/-- `EPush(w, a)` (R72): `none` when the evaluation stack is full. -/
def ePush (w a : Word) (s : State) : Option State :=
  if s.esp < Config.evalDepth then some (s.setEstk (⟨w, a⟩ :: s.estk)) else none

/-- `EPop()` (R73): `none` when the evaluation stack is empty. -/
def ePop (s : State) : Option (EvalEntry × State) :=
  match s.estk with
  | [] => none
  | e :: es => some (e, s.setEstk es)

/-- `CPush(l)` (R74): `none` when the call stack is full. -/
def cPush (l : Word) (s : State) : Option State :=
  if s.csp < Config.callDepth then some (s.setCstk (l :: s.cstk)) else none

/-- `CPop()` (R75): `none` when the call stack is empty. -/
def cPop (s : State) : Option (Word × State) :=
  match s.cstk with
  | [] => none
  | l :: ls => some (l, s.setCstk ls)

/-- `min(EDISC + 1, EDISC_MAX)` (R76). -/
def ediscUp (d : Word) : Word := BitVec.ofNat 16 (min (d.toNat + 1) Config.ediscMax)

/-- `GroupOpen(v)` (R76) of the word `w`: the word and the accumulator are pushed and the accumulator
takes `v`; on a full stack (EVAL_OVF) the refused open is only counted. -/
def groupOpen (w v : Word) (s : State) : State :=
  match ePush w s.acc s with
  | some s' => s'.setAcc v
  | none => s.setEdisc (ediscUp s.edisc)

/-- `MemSet(addr, v, inv)` on the bound provider's cells. -/
def store (addr v : Word) (inv : Bool) (s : State) : State := s.setMem (memSet s.mem addr v inv)

/-- The execute step around an instruction's own effect (R69): refused while `INIT` = 0, and `NEXT`
set to `(LINE + 1) mod 2^16` before the instruction may replace it (R70). -/
def execute (effect : State → State) (s : State) : Host.Outcome State Fault Refusal :=
  if s.init then .next (effect (s.setLine (s.line + 1#16))) else .refused .notInitialised

/-- `BinaryOp(IR, OPR)` (R100): the operand is fetched first, then the group opens (G) or the operator
is applied at once. -/
def binaryOp (op : BinOp) (f : FlagBits) (opr : Word) (s : State) : State :=
  let v := binValue f opr s
  if f.fg then groupOpen (irWord op.code f) v s else s.setAcc (applyOp op s.acc v f.fn)

/-- What a close-group does with the entry it popped (R115 to R118). -/
def completeDeferred (e : EvalEntry) (s : State) : State :=
  let neg := (flagBitsOf e.w).fn
  match (opField e.w).toNat with
  | 1 => s.setAcc (memGet s.mem s.acc neg)
  | 2 => (store s.acc e.a neg s).setAcc e.a
  | _ =>
    match BinOp.ofCode (opField e.w) with
    | some op => s.setAcc (applyOp op e.a s.acc neg)
    | none => s

/-- `Close()` (R114): the close of a refused open is consumed, an empty stack (EVAL_UNF) makes it a
no-op, and otherwise the popped entry is completed. -/
def closeGroup (s : State) : State :=
  if s.edisc ≠ 0#16 then s.setEdisc (s.edisc - 1#16)
  else
    match ePop s with
    | none => s
    | some (e, s') => completeDeferred e s'

end Sys2Proof.Machine
end

