-- ==== Sys2Proof/Machine/Binary.lean ====
section
/-! DEFINITION. The thirteen binary operators (spec/44_binary_operators.md): the operand fetch and the
group open are `binaryOp` (R100), the functions are `binResult` (R99). -/

namespace Sys2Proof.Machine

/-- AND (R101). -/
def execAnd (f : FlagBits) (opr : Word) (s : State) : Host.Outcome State Fault Refusal :=
  execute (binaryOp .and f opr) s

/-- OR (R102). -/
def execOr (f : FlagBits) (opr : Word) (s : State) : Host.Outcome State Fault Refusal :=
  execute (binaryOp .or f opr) s

/-- XOR (R103). -/
def execXor (f : FlagBits) (opr : Word) (s : State) : Host.Outcome State Fault Refusal :=
  execute (binaryOp .xor f opr) s

/-- ADD (R104). -/
def execAdd (f : FlagBits) (opr : Word) (s : State) : Host.Outcome State Fault Refusal :=
  execute (binaryOp .add f opr) s

/-- SUB (R105). -/
def execSub (f : FlagBits) (opr : Word) (s : State) : Host.Outcome State Fault Refusal :=
  execute (binaryOp .sub f opr) s

/-- MUL (R106). -/
def execMul (f : FlagBits) (opr : Word) (s : State) : Host.Outcome State Fault Refusal :=
  execute (binaryOp .mul f opr) s

/-- DIV (R107). -/
def execDiv (f : FlagBits) (opr : Word) (s : State) : Host.Outcome State Fault Refusal :=
  execute (binaryOp .div f opr) s

/-- GT (R108). -/
def execGt (f : FlagBits) (opr : Word) (s : State) : Host.Outcome State Fault Refusal :=
  execute (binaryOp .gt f opr) s

/-- GE (R109). -/
def execGe (f : FlagBits) (opr : Word) (s : State) : Host.Outcome State Fault Refusal :=
  execute (binaryOp .ge f opr) s

/-- EQ (R110). -/
def execEq (f : FlagBits) (opr : Word) (s : State) : Host.Outcome State Fault Refusal :=
  execute (binaryOp .eq f opr) s

/-- NE (R111). -/
def execNe (f : FlagBits) (opr : Word) (s : State) : Host.Outcome State Fault Refusal :=
  execute (binaryOp .ne f opr) s

/-- LE (R112). -/
def execLe (f : FlagBits) (opr : Word) (s : State) : Host.Outcome State Fault Refusal :=
  execute (binaryOp .le f opr) s

/-- LT (R113). -/
def execLt (f : FlagBits) (opr : Word) (s : State) : Host.Outcome State Fault Refusal :=
  execute (binaryOp .lt f opr) s

end Sys2Proof.Machine
end

