-- ==== Sys2Proof/Machine/Close.lean ====
section
/-! DEFINITION. The close-group instruction (spec/45_close_group.md). -/

namespace Sys2Proof.Machine

/-- Close-group (R114): its flags and its operand are ignored. -/
def execClose (_f : FlagBits) (_opr : Word) (s : State) : Host.Outcome State Fault Refusal :=
  execute closeGroup s

end Sys2Proof.Machine
end

