-- ==== Sys2Proof/Machine/Control.lean ====
section
/-! DEFINITION. JUMP, CALL and RET (spec/42_control_transfer.md). Inside `execute` the line of the
state is already `NEXT = (LINE + 1) mod 2^16`, which is the line CALL pushes. -/

namespace Sys2Proof.Machine

/-- JUMP (R92). -/
def execJump (f : FlagBits) (opr : Word) (s : State) : Host.Outcome State Fault Refusal :=
  execute (fun s => if gate s f then s.setLine opr else s) s

/-- What CALL does when its gate is true (R93): a full call stack (CALL_OVF) lets it fall through. -/
def callLine (opr : Word) (s : State) : State :=
  match cPush s.line s with
  | some s' => s'.setLine opr
  | none => s

/-- CALL (R93). -/
def execCall (f : FlagBits) (opr : Word) (s : State) : Host.Outcome State Fault Refusal :=
  execute (fun s => if gate s f then callLine opr s else s) s

/-- What RET does when its gate is true (R94): an empty call stack (CALL_UNF) gives the sentinel. -/
def returnLine (s : State) : State :=
  match cPop s with
  | some (l, s') => s'.setLine l
  | none => s.setLine Config.sentinel

/-- RET (R94). -/
def execRet (f : FlagBits) (_opr : Word) (s : State) : Host.Outcome State Fault Refusal :=
  execute (fun s => if gate s f then returnLine s else s) s

end Sys2Proof.Machine
end

