-- ==== Sys2Proof/Machine/LoadStore.lean ====
section
/-! DEFINITION. LOAD and STOR and their grouped forms (spec/43_load_store.md). -/

namespace Sys2Proof.Machine

/-- LOAD with G clear (R95). -/
def execLoad (f : FlagBits) (opr : Word) (s : State) : Host.Outcome State Fault Refusal :=
  execute (fun s => s.setAcc (loadValue f opr s)) s

/-- LOAD with G set (R97): the operand is the first value of the address computation. -/
def execLoadGroup (f : FlagBits) (opr : Word) (s : State) : Host.Outcome State Fault Refusal :=
  execute (groupOpen (irWord 1#8 f) opr) s

/-- STOR with G clear (R96). -/
def execStor (f : FlagBits) (opr : Word) (s : State) : Host.Outcome State Fault Refusal :=
  execute (fun s => store opr s.acc f.fn s) s

/-- STOR with G set (R98): the saved accumulator is the value the close will store. -/
def execStorGroup (f : FlagBits) (opr : Word) (s : State) : Host.Outcome State Fault Refusal :=
  execute (groupOpen (irWord 2#8 f) opr) s

end Sys2Proof.Machine
end

