-- ==== Sys2Proof/Machine/NopSetRst.lean ====
section
/-! DEFINITION. NOP, SET and RST (spec/41_nop_set_rst.md). -/

namespace Sys2Proof.Machine

/-- NOP (R88), and the undefined opcodes (R91): no effect. -/
def execNop (_f : FlagBits) (_opr : Word) (s : State) : Host.Outcome State Fault Refusal :=
  execute (fun s => s) s

/-- SET (R89): when the accumulator passes the test, the cell receives 1. A word cell receives the
value 1 as well. -/
def execSet (f : FlagBits) (opr : Word) (s : State) : Host.Outcome State Fault Refusal :=
  execute (fun s => if accCond s f.fn then store opr 1#16 false s else s) s

/-- RST (R90): when the accumulator passes the test, the cell receives 0. -/
def execRst (f : FlagBits) (opr : Word) (s : State) : Host.Outcome State Fault Refusal :=
  execute (fun s => if accCond s f.fn then store opr 0#16 false s else s) s

end Sys2Proof.Machine
end

