-- ==== Sys2Proof/Machine/Dispatch.lean ====
section
/-! DEFINITION. One instruction's execute step (spec/40_engine.md R69, R71): the line of the state is
`LINE` on entry and `NEXT` on exit. -/

namespace Sys2Proof.Machine

def exec (i : Instr) (s : State) : Host.Outcome State Fault Refusal :=
  match i with
  | .nop f opr => Sys2Proof.Machine.execNop f opr s
  | .load f opr => Sys2Proof.Machine.execLoad f opr s
  | .loadGroup f opr => Sys2Proof.Machine.execLoadGroup f opr s
  | .stor f opr => Sys2Proof.Machine.execStor f opr s
  | .storGroup f opr => Sys2Proof.Machine.execStorGroup f opr s
  | .set f opr => Sys2Proof.Machine.execSet f opr s
  | .rst f opr => Sys2Proof.Machine.execRst f opr s
  | .and f opr => Sys2Proof.Machine.execAnd f opr s
  | .or f opr => Sys2Proof.Machine.execOr f opr s
  | .xor f opr => Sys2Proof.Machine.execXor f opr s
  | .add f opr => Sys2Proof.Machine.execAdd f opr s
  | .sub f opr => Sys2Proof.Machine.execSub f opr s
  | .mul f opr => Sys2Proof.Machine.execMul f opr s
  | .div f opr => Sys2Proof.Machine.execDiv f opr s
  | .gt f opr => Sys2Proof.Machine.execGt f opr s
  | .ge f opr => Sys2Proof.Machine.execGe f opr s
  | .eq f opr => Sys2Proof.Machine.execEq f opr s
  | .ne f opr => Sys2Proof.Machine.execNe f opr s
  | .le f opr => Sys2Proof.Machine.execLe f opr s
  | .lt f opr => Sys2Proof.Machine.execLt f opr s
  | .jump f opr => Sys2Proof.Machine.execJump f opr s
  | .call f opr => Sys2Proof.Machine.execCall f opr s
  | .ret f opr => Sys2Proof.Machine.execRet f opr s
  | .close f opr => Sys2Proof.Machine.execClose f opr s

end Sys2Proof.Machine
end

