-- ==== Sys2Proof/Machine/Sequencer.lean ====
section
/-! DEFINITION. The scan sequencer (spec/40_engine.md R78 to R82) and the host operations around it
(R83 to R86). -/

namespace Sys2Proof.Machine

/-- One step of the sequencer (R78). While IDLE it keeps all its state (60_exceptions.md R130). -/
def sequencerStep (s : State) : Host.Outcome State Fault Refusal :=
  match s.seq with
  | .idle => .next s
  | .run =>
    match s.prog[s.line.toNat]? with
    | none => .next (s.setSeq .idle)
    | some l => exec (decodeLine l.w l.opr) s

/-- The "when" column of R83. -/
def HostOp.allowed (op : HostOp) (s : State) : Bool :=
  match op with
  | .init _ => s.seq == .idle
  | .startScan => s.seq == .idle && s.init
  | .execute _ _ _ => s.seq == .idle && s.init
  | .getAccumulator => true
  | .parse _ => true
  | .writeCell _ _ => s.seq == .idle || Config.hostMemInterleave
  | .replaceProgram _ => s.seq == .idle
  | .pass => true

/-- The cells of a provider given by its nonzero cells (log 20). -/
def providerCells (cells : List (Word × Word)) : Memory :=
  cells.foldl (fun m c => memSet m c.1 c.2 false) ⟨[]⟩

/-- `Init(provider)` (70_reset_and_hazards.md R131). Binding the provider that is bound already leaves
its cells as they are. DESIGN CHOICE, unsafe: `LINE` keeps its value, where the spec gives it none until
a scan starts (10_state.md R29, log 26). -/
def initialise (provider : Option (List (Word × Word))) (s : State) : State :=
  { s with
    acc := 0#16
    estk := []
    cstk := []
    edisc := 0#16
    init := true
    seq := .idle
    mem := match provider with
      | none => s.mem
      | some cells => providerCells cells
    reply := none }

/-- A direct `execute(w, opr, line)` (R84): the step of R69 at the host's line. `NEXT` goes to the host;
the sequencer's `LINE` stays. -/
def directExecute (w opr line : Word) (s : State) : Host.Outcome State Fault Refusal :=
  match exec (decodeLine w opr) (s.setLine line) with
  | .next t => .next ((t.setLine s.line).setReply (some t.line))
  | .fault r => .fault r
  | .refused r => .refused r

/-- What a host operation does where R83 allows it. -/
def hostEffect (op : HostOp) (s : State) : Host.Outcome State Fault Refusal :=
  match op with
  | .init provider => .next (initialise provider s)
  | .startScan => .next (((s.setLine 0#16).setSeq .run).setReply none)
  | .execute w opr line => directExecute w opr line s
  | .getAccumulator => .next (s.setReply (some s.acc))
  | .parse token => .next (s.setReply (some (parse token)))
  | .writeCell addr v => .next ((store addr v false s).setReply none)
  | .replaceProgram lines =>
    if lines.length ≤ Config.maxProgLen then .next ((s.setProg lines).setReply none)
    else .refused .programTooLong
  | .pass => sequencerStep s

/-- One step of the block and its host (log 1): the next pending operation is performed where R83 allows
it. While a scan runs, one that is not allowed waits and the sequencer takes its step. While IDLE,
the only ones not allowed need `INIT` = 1 and are refused (10_state.md R24). -/
def hostStep (s : State) : Host.Outcome State Fault Refusal :=
  match s.pending with
  | [] => sequencerStep s
  | op :: rest =>
    if op.allowed s then hostEffect op (s.setPending rest)
    else
      match s.seq with
      | .run => sequencerStep s
      | .idle => .refused .notInitialised

/-- The state in which the next step runs the given line as line 0 of a scan (log 3): the program is
that one line, the block is initialised and scanning, and no host operation comes first. -/
def State.withLine (s : State) (l : ProgLine) : State :=
  { s with prog := [l], line := 0#16, seq := .run, init := true, pending := [] }

/-- The line whose words hold the bits of `w` below `nbits`: bits 15..0 are the instruction word, bits
31..16 the operand. -/
def lineOfBits (nbits w : Nat) : ProgLine where
  w := BitVec.ofNat 16 (w % 2 ^ nbits)
  opr := BitVec.ofNat 16 (w % 2 ^ nbits / 2 ^ 16)

end Sys2Proof.Machine
end

