-- ==== Sys2Proof/Machine/Step.lean ====
section
/-! DEFINITION. The step of the machine, and the state that runs a given instruction next. -/

namespace Sys2Proof.Machine

/-- One step of the block and its host (spec/40_engine.md R78, R83). -/
def step (s : State) : Host.Outcome State Fault Refusal := hostStep s

/-- The state whose next step runs exactly the instruction with the bits `w` (log 3, log 15). -/
def State.withFetchWord (s : State) (nbits w : Nat) : State := s.withLine (lineOfBits nbits w)

end Sys2Proof.Machine
end

