-- ==== Sys2Proof/Safety.lean ====
section
/-! DEFINITION. What a good state is, and the views of a step the claims are stated in. -/

namespace Sys2Proof

/-- JUMP, CALL and RET, the only instructions that may replace the next line (40_engine.md R70). -/
def Instr.isTransfer (i : Instr) : Bool := i.opcode == 18#8 || i.opcode == 19#8 || i.opcode == 20#8

/-- CALL and RET, the only instructions that touch the call stack (70_reset_and_hazards.md R138). -/
def Instr.usesCallStack (i : Instr) : Bool := i.opcode == 19#8 || i.opcode == 20#8

/-- The instruction with the reserved field and every flag cleared that changes nothing for it
(30_encoding.md R55, R57). -/
def Instr.effective : Instr → Instr
  | .nop _ opr => .nop ⟨0#4, false, false, false, false⟩ opr
  | .load f opr => .load ⟨0#4, f.fg, false, f.fn && !f.fi, f.fi⟩ opr
  | .loadGroup f opr => .loadGroup ⟨0#4, f.fg, false, f.fn, false⟩ opr
  | .stor f opr => .stor ⟨0#4, f.fg, false, f.fn, false⟩ opr
  | .storGroup f opr => .storGroup ⟨0#4, f.fg, false, f.fn, false⟩ opr
  | .set f opr => .set ⟨0#4, false, false, f.fn, false⟩ opr
  | .rst f opr => .rst ⟨0#4, false, false, f.fn, false⟩ opr
  | .and f opr => .and ⟨0#4, f.fg, false, f.fn, f.fi⟩ opr
  | .or f opr => .or ⟨0#4, f.fg, false, f.fn, f.fi⟩ opr
  | .xor f opr => .xor ⟨0#4, f.fg, false, f.fn, f.fi⟩ opr
  | .add f opr => .add ⟨0#4, f.fg, false, f.fn, f.fi⟩ opr
  | .sub f opr => .sub ⟨0#4, f.fg, false, f.fn, f.fi⟩ opr
  | .mul f opr => .mul ⟨0#4, f.fg, false, f.fn, f.fi⟩ opr
  | .div f opr => .div ⟨0#4, f.fg, false, f.fn, f.fi⟩ opr
  | .gt f opr => .gt ⟨0#4, f.fg, false, f.fn, f.fi⟩ opr
  | .ge f opr => .ge ⟨0#4, f.fg, false, f.fn, f.fi⟩ opr
  | .eq f opr => .eq ⟨0#4, f.fg, false, f.fn, f.fi⟩ opr
  | .ne f opr => .ne ⟨0#4, f.fg, false, f.fn, f.fi⟩ opr
  | .le f opr => .le ⟨0#4, f.fg, false, f.fn, f.fi⟩ opr
  | .lt f opr => .lt ⟨0#4, f.fg, false, f.fn, f.fi⟩ opr
  | .jump f opr => .jump ⟨0#4, false, f.fc, f.fn && f.fc, false⟩ opr
  | .call f opr => .call ⟨0#4, false, f.fc, f.fn && f.fc, false⟩ opr
  | .ret f opr => .ret ⟨0#4, false, f.fc, f.fn && f.fc, false⟩ opr
  | .close _ opr => .close ⟨0#4, false, false, false, false⟩ opr

end Sys2Proof

namespace Sys2Proof.Machine

/-- An entry a group open can have pushed (spec/10_state.md R21): its opcode is LOAD, STOR or a binary
operator and its BeginGroup bit is set. -/
def EvalEntry.deferred (e : EvalEntry) : Bool :=
  (opField e.w == 1#8 || opField e.w == 2#8 || (BinOp.ofCode (opField e.w)).isSome)
    && (flagBitsOf e.w).fg

/-- The invariant of the block and of what it is bound to: the bounds of the two stacks (10_state.md
R20, R22), what the evaluation stack holds (R21), when the overflow-discard counter can be nonzero
(R23), the canonical form of the cells, the range of `PROG_LEN` (00_scope.md R7), and that only an
initialised block runs a scan (40_engine.md R83). -/
structure State.Inv (s : State) : Prop where
  evalDepth : s.esp ≤ Config.evalDepth
  evalEntries : ∀ e ∈ s.estk, e.deferred = true
  callDepth : s.csp ≤ Config.callDepth
  discards : s.edisc ≠ 0#16 → s.esp = Config.evalDepth
  memWf : s.mem.wf = true
  progLen : s.progLen ≤ Config.maxProgLen
  running : s.seq = .run → s.init = true

/-- The address an instruction hands to `MemSet` (20_memory.md R43): the operand for STOR, and for SET
and RST when their test is true, and the group's result for the close of a deferred STOR. -/
def storeTarget (i : Instr) (s : State) : Option Word :=
  match i with
  | .stor _ opr => some opr
  | .set f opr => if accCond s f.fn then some opr else none
  | .rst f opr => if accCond s f.fn then some opr else none
  | .close _ _ =>
    match s.estk with
    | [] => none
    | e :: _ => if s.edisc = 0#16 ∧ opField e.w = 2#8 then some s.acc else none
  | .nop _ _ => none
  | .load _ _ => none
  | .loadGroup _ _ => none
  | .storGroup _ _ => none
  | .and _ _ => none
  | .or _ _ => none
  | .xor _ _ => none
  | .add _ _ => none
  | .sub _ _ => none
  | .mul _ _ => none
  | .div _ _ => none
  | .gt _ _ => none
  | .ge _ _ => none
  | .eq _ _ => none
  | .ne _ _ => none
  | .le _ _ => none
  | .lt _ _ => none
  | .jump _ _ => none
  | .call _ _ => none
  | .ret _ _ => none

/-- An entry with the bits outside a mask cleared in its saved word. -/
def EvalEntry.masked (m : Word) (e : EvalEntry) : EvalEntry := ⟨e.w &&& m, e.a⟩

/-- The state with the bits outside a mask cleared in every saved word. -/
def State.masked (s : State) (m : Word) : State := s.setEstk (s.estk.map (EvalEntry.masked m))

/-- No host operation is performed before the sequencer's next step: none is pending, or the next one
has to wait (40_engine.md R83). -/
def State.hostQuiet (s : State) : Bool :=
  match s.pending with
  | [] => true
  | op :: _ => !op.allowed s

/-- `(LINE + 1) mod 2^16`, the default next line (spec/40_engine.md R70). -/
def nextLine (s : State) : Word := BitVec.ofNat 16 ((s.line.toNat + 1) % 65536)

/-- The number a second operand stands for: the value, or with N its 16-bit complement `65535 - v`
(44_binary_operators.md R99, R104). -/
def operandNat (v : Word) (neg : Bool) : Nat := if neg then 65535 - v.toNat else v.toNat

/-- What a `MemSet(addr, v, inv)` between two memories leaves in every cell (20_memory.md R40, R41):
nothing changes for an invalid address, and otherwise the one addressed cell is written. -/
def CellStored (before after : Memory) (addr v : Word) (inv : Bool) : Prop :=
  (decodeAddr addr = none → after = before) ∧
  (∀ k, k ≠ addr.toNat → after.read k = before.read k) ∧
  ∀ r i, decodeAddr addr = some (r, i) →
    (r.isBit = true → after.bit r i = ((v != 0#16) ^^ inv)) ∧
    (r.isBit = false → (after.word r i).toNat = operandNat v inv)

/-- Evaluated at once (G clear), the binary operator completes, writes `ACC` with the number `g` gives on
the accumulator and the second operand, and changes nothing else but the line
(44_binary_operators.md R100). -/
def EvaluatesTo (instr : FlagBits → Word → Instr) (g : Nat → Nat → Nat) : Prop :=
  ∀ (f : FlagBits) (opr : Word) (s : State), s.init = true → f.fg = false →
    ∃ t, exec (instr f opr) s = .next t ∧ t = { s with line := nextLine s, acc := t.acc } ∧
      t.acc.toNat = g s.acc.toNat (operandNat (binValue f opr s) f.fn)

end Sys2Proof.Machine
end

