-- ==== Sys2Proof/Certificates/Slice0/Obligations.lean ====
section
/-! DEFINITION. The statements for the provers, by the rules of spec/. "INIT = 1" is `s.init = true`; an
instruction's outcome is written as a record update of the state it starts in, so that every field
that is not named is unchanged. -/

open Sys2Proof Sys2Proof.Machine

/-! ## Encoding -/

/-- 30_encoding.md R50, R51, R53: decoding the words of a well-formed instruction gives it back, with
every flag, reserved bit and operand. -/
def Obligations.DecodeOfEncode : Prop :=
  ∀ i : Instr, i.wellFormed = true → decode (encode i) = .ok i

/-- 30_encoding.md R51, R53, R60: every line decodes to a well-formed instruction, and a line with a
defined opcode is the line that instruction encodes to. -/
def Obligations.EncodeOfDecode : Prop :=
  ∀ w opr : Word, (decodeLine w opr).wellFormed = true ∧
    ((opField w).toNat ≤ 21 → encode (decodeLine w opr) = [w, opr])

/-- 41_nop_set_rst.md R91 (the spec's decision D3): undefined opcodes execute as NOP. -/
def Obligations.UndefinedOpcodesExecuteAsNop : Prop :=
  ∀ (w opr : Word) (s : State), s.init = true → 22 ≤ w.toNat % 256 →
    exec (decodeLine w opr) s = .next { s with line := nextLine s }

/-- 30_encoding.md R51, R67: words written out from the spec's encoding. -/
def Obligations.WordsOfTheSpecDecode : Prop :=
  decodeLine 0x0101#16 5#16 = .load ⟨0#4, false, false, false, true⟩ 5#16 ∧
  decodeLine 0x0801#16 30000#16 = .loadGroup ⟨0#4, true, false, false, false⟩ 30000#16 ∧
  decodeLine 0x0203#16 10001#16 = .set ⟨0#4, false, false, true, false⟩ 10001#16 ∧
  decodeLine 0x0908#16 2#16 = .add ⟨0#4, true, false, false, true⟩ 2#16 ∧
  decodeLine 0x0612#16 9#16 = .jump ⟨0#4, false, true, true, false⟩ 9#16 ∧
  decodeLine 0x0015#16 0#16 = .close ⟨0#4, false, false, false, false⟩ 0#16

/-- 30_encoding.md section 2 (the reserved field has no effect): a line runs as the line with bits
15:12 cleared, where the reserved bits that a saved word keeps are disregarded. That a saved word
keeps them is the model's reading (log 12). -/
def Obligations.ReservedBitsHaveNoEffect : Prop :=
  ∀ (w opr : Word) (s t : State), exec (decodeLine w opr) s = .next t →
    exec (decodeLine (w &&& 0x0FFF#16) opr) (s.masked 0x0FFF#16) = .next (t.masked 0x0FFF#16)

/-- 30_encoding.md section 3 (the table of the flags that change behaviour): clearing the reserved field
and every flag the table does not mark for the instruction changes no result, where of a saved word
only the opcode and the Negate bit count. -/
def Obligations.UnmarkedFlagsHaveNoEffect : Prop :=
  ∀ (i : Instr) (s t : State), exec i s = .next t →
    ∃ u, exec i.effective (s.masked 0x02FF#16) = .next u ∧
      u.masked 0x02FF#16 = t.masked 0x02FF#16

/-! ## The assembler -/

/-- 30_encoding.md R61: the result of `parse` has an opcode in 0..21 and bits 15:12 clear. -/
def Obligations.ParseGivesOpcodeAndFlags : Prop :=
  ∀ token : List Char, (opField (parse token)).toNat ≤ 21 ∧ (parse token).toNat < 4096

/-- 30_encoding.md R62: a token that begins with a mnemonic gets its opcode, any other token 0. The last
mnemonic is the closing brace, character 125. -/
def Obligations.ParseMatchesMnemonicPrefix : Prop :=
  ∀ (token : List Char) (table : List (List Char × Nat)),
    table = [("LOAD".toList, 1), ("STOR".toList, 2), ("SET".toList, 3), ("RST".toList, 4),
      ("AND".toList, 5), ("OR".toList, 6), ("XOR".toList, 7), ("ADD".toList, 8),
      ("SUB".toList, 9), ("MUL".toList, 10), ("DIV".toList, 11), ("GT".toList, 12),
      ("GE".toList, 13), ("EQ".toList, 14), ("NE".toList, 15), ("LE".toList, 16),
      ("LT".toList, 17), ("JUMP".toList, 18), ("CALL".toList, 19), ("RET".toList, 20),
      ([Char.ofNat 125], 21)] →
    (∀ m c, (m, c) ∈ table → m <+: token → (opField (parse token)).toNat = c) ∧
    ((∀ m c, (m, c) ∈ table → ¬ m <+: token) → (opField (parse token)).toNat = 0)

/-- 30_encoding.md R64: the flags are the characters after the first `_`, each setting its bit; a token
without `_` has none. The BeginGroup character is the opening brace, character 123. -/
def Obligations.ParseScansFlagsAfterFirstUnderscore : Prop :=
  (∀ before after : List Char, '_' ∉ before →
    let w := parse (before ++ '_' :: after)
    (w.getLsbD 8 = true ↔ 'I' ∈ after) ∧ (w.getLsbD 9 = true ↔ 'N' ∈ after) ∧
    (w.getLsbD 10 = true ↔ 'C' ∈ after) ∧ (w.getLsbD 11 = true ↔ Char.ofNat 123 ∈ after)) ∧
  ∀ token : List Char, '_' ∉ token → (parse token).toNat < 256

/-! ## Memory -/

/-- 20_memory.md R33: the address decoder, by the five-digit addresses. -/
def Obligations.AddressDecoderFollowsTheMap : Prop :=
  ∀ a : Word,
    (1 ≤ a.toNat ∧ a.toNat ≤ 26 → decodeAddr a = some (.bitBankA, a.toNat - 1)) ∧
    (10001 ≤ a.toNat ∧ a.toNat ≤ 10026 → decodeAddr a = some (.bitBankB, a.toNat - 10001)) ∧
    (30001 ≤ a.toNat ∧ a.toNat ≤ 30026 → decodeAddr a = some (.wordBankA, a.toNat - 30001)) ∧
    (40001 ≤ a.toNat ∧ a.toNat ≤ 40026 → decodeAddr a = some (.wordBankB, a.toNat - 40001)) ∧
    (a.toNat % 10000 = 0 ∨ 26 < a.toNat % 10000 ∨ a.toNat / 10000 = 2 ∨ 4 < a.toNat / 10000 →
      decodeAddr a = none)

/-- 20_memory.md R38, R39: what `MemGet` returns. -/
def Obligations.MemGetReadsOneCell : Prop :=
  ∀ (m : Memory) (a : Word) (inv : Bool),
    (decodeAddr a = none → (memGet m a inv).toNat = 0) ∧
    ∀ r i, decodeAddr a = some (r, i) →
      (r.isBit = true → (memGet m a inv).toNat = if m.bit r i = inv then 0 else 1) ∧
      (r.isBit = false → (memGet m a inv).toNat = operandNat (m.word r i) inv)

/-- 20_memory.md R40, R41: what `MemSet` writes, and that it writes nothing else. -/
def Obligations.MemSetWritesOneCell : Prop :=
  ∀ (m : Memory) (a v : Word) (inv : Bool), CellStored m (memSet m a v inv) a v inv

/-- 20_memory.md section 2 (read-back): `MemGet` right after `MemSet`. -/
def Obligations.MemGetAfterMemSet : Prop :=
  ∀ (m : Memory) (a v : Word),
    (decodeAddr a = none →
      memGet (memSet m a v false) a false = 0#16 ∧ memGet (memSet m a v false) a true = 0#16) ∧
    ∀ r i, decodeAddr a = some (r, i) →
      (r.isBit = true →
        (memGet (memSet m a v false) a false).toNat = (if v.toNat = 0 then 0 else 1) ∧
        (memGet (memSet m a v false) a true).toNat = (if v.toNat = 0 then 1 else 0)) ∧
      (r.isBit = false →
        memGet (memSet m a v false) a false = v ∧ memGet (memSet m a v false) a true = ~~~v)

/-- The model's canonical form (log 7): two memories in it that hold the same in every cell are equal. -/
def Obligations.CanonicalMemoriesWithEqualCellsAreEqual : Prop :=
  ∀ m n : Memory, m.wf = true → n.wf = true → (∀ k, m.read k = n.read k) → m = n

/-! ## NOP, SET, RST, LOAD and STOR -/

/-- 41_nop_set_rst.md R88. -/
def Obligations.NopChangesOnlyTheLine : Prop :=
  ∀ (f : FlagBits) (opr : Word) (s : State), s.init = true →
    exec (.nop f opr) s = .next { s with line := nextLine s }

/-- 41_nop_set_rst.md R89 (for a word address the spec's decision D8). -/
def Obligations.SetStoresOneWhenTestHolds : Prop :=
  ∀ (f : FlagBits) (opr : Word) (s : State), s.init = true →
    ∃ t, exec (.set f opr) s = .next t ∧ t = { s with line := nextLine s, mem := t.mem } ∧
      (((s.acc != 0#16) ^^ f.fn) = true → CellStored s.mem t.mem opr 1#16 false) ∧
      (((s.acc != 0#16) ^^ f.fn) = false → t.mem = s.mem)

/-- 41_nop_set_rst.md R90 (for a word address the spec's decision D8). -/
def Obligations.RstStoresZeroWhenTestHolds : Prop :=
  ∀ (f : FlagBits) (opr : Word) (s : State), s.init = true →
    ∃ t, exec (.rst f opr) s = .next t ∧ t = { s with line := nextLine s, mem := t.mem } ∧
      (((s.acc != 0#16) ^^ f.fn) = true → CellStored s.mem t.mem opr 0#16 false) ∧
      (((s.acc != 0#16) ^^ f.fn) = false → t.mem = s.mem)

/-- 43_load_store.md R95. -/
def Obligations.LoadReadsLiteralOrCell : Prop :=
  ∀ (f : FlagBits) (opr : Word) (s : State), s.init = true →
    exec (.load f opr) s = .next { s with
      line := nextLine s, acc := if f.fi then opr else memGet s.mem opr f.fn }

/-- 43_load_store.md R96. -/
def Obligations.StorStoresTheAccumulator : Prop :=
  ∀ (f : FlagBits) (opr : Word) (s : State), s.init = true →
    ∃ t, exec (.stor f opr) s = .next t ∧ t = { s with line := nextLine s, mem := t.mem } ∧
      CellStored s.mem t.mem opr s.acc f.fn

/-! ## Groups -/

/-- 43_load_store.md R97, R98 (the count of a refused open is the spec's decision D5): LOAD and STOR with
G push the word and the accumulator and take the operand as it is; a full stack leaves `ACC` and
counts the open. -/
def Obligations.LoadAndStorGroupsOpen : Prop :=
  ∀ (f : FlagBits) (opr : Word) (s : State), s.init = true →
    (s.esp < 20 →
      exec (.loadGroup f opr) s = .next { s with
        line := nextLine s, acc := opr, estk := ⟨irWord 1#8 f, s.acc⟩ :: s.estk } ∧
      exec (.storGroup f opr) s = .next { s with
        line := nextLine s, acc := opr, estk := ⟨irWord 2#8 f, s.acc⟩ :: s.estk }) ∧
    (20 ≤ s.esp →
      exec (.loadGroup f opr) s = .next { s with
        line := nextLine s, edisc := BitVec.ofNat 16 (min (s.edisc.toNat + 1) 65535) } ∧
      exec (.storGroup f opr) s = .next { s with
        line := nextLine s, edisc := BitVec.ofNat 16 (min (s.edisc.toNat + 1) 65535) })

/-- 44_binary_operators.md R100: the operand fetch and the group open of all thirteen operators. -/
def Obligations.BinaryOperatorsFetchThenOpenOrApply : Prop :=
  ∀ (op : BinOp) (f : FlagBits) (opr v : Word) (s : State), s.init = true →
    v = (if f.fi then opr else memGet s.mem opr false) →
    (f.fg = false →
      exec (op.instr f opr) s = .next { s with
        line := nextLine s, acc := applyOp op s.acc v f.fn }) ∧
    (f.fg = true → s.esp < 20 →
      exec (op.instr f opr) s = .next { s with
        line := nextLine s, acc := v, estk := ⟨irWord op.code f, s.acc⟩ :: s.estk }) ∧
    (f.fg = true → 20 ≤ s.esp →
      exec (op.instr f opr) s = .next { s with
        line := nextLine s, edisc := BitVec.ofNat 16 (min (s.edisc.toNat + 1) 65535) })

/-- 40_engine.md R76: the saved word is the whole fetched word, flags and reserved bits included. -/
def Obligations.GroupOpenSavesTheFetchedWord : Prop :=
  ∀ (w opr : Word) (s : State), s.init = true → s.esp < 20 → w.getLsbD 11 = true →
    (w.toNat % 256 = 1 ∨ w.toNat % 256 = 2 ∨ (5 ≤ w.toNat % 256 ∧ w.toNat % 256 ≤ 17)) →
    ∃ t, exec (decodeLine w opr) s = .next t ∧ t.estk = ⟨w, s.acc⟩ :: s.estk

/-- 45_close_group.md R114 (the count of refused opens is the spec's decision D5): the close of a refused
open is consumed, and a close with no open group changes only the line. -/
def Obligations.CloseWithoutAnOpenGroup : Prop :=
  ∀ (f : FlagBits) (opr : Word) (s : State), s.init = true →
    (0 < s.edisc.toNat →
      exec (.close f opr) s = .next { s with
        line := nextLine s, edisc := BitVec.ofNat 16 (s.edisc.toNat - 1) }) ∧
    (s.edisc.toNat = 0 → s.estk = [] →
      exec (.close f opr) s = .next { s with line := nextLine s })

/-- 45_close_group.md R115. -/
def Obligations.CloseCompletesDeferredLoad : Prop :=
  ∀ (f : FlagBits) (opr : Word) (s : State) (e : EvalEntry) (es : List EvalEntry),
    s.init = true → s.edisc = 0#16 → s.estk = e :: es → e.w.toNat % 256 = 1 →
    exec (.close f opr) s = .next { s with
      line := nextLine s, estk := es, acc := memGet s.mem s.acc (e.w.getLsbD 9) }

/-- 45_close_group.md R116. -/
def Obligations.CloseCompletesDeferredStor : Prop :=
  ∀ (f : FlagBits) (opr : Word) (s : State) (e : EvalEntry) (es : List EvalEntry),
    s.init = true → s.edisc = 0#16 → s.estk = e :: es → e.w.toNat % 256 = 2 →
    ∃ t, exec (.close f opr) s = .next t ∧
      t = { s with line := nextLine s, estk := es, acc := e.a, mem := t.mem } ∧
      CellStored s.mem t.mem s.acc e.a (e.w.getLsbD 9)

/-- 45_close_group.md R117: the saved accumulator is the first operand, the group's result the second. -/
def Obligations.CloseCompletesDeferredOperator : Prop :=
  ∀ (f : FlagBits) (opr : Word) (s : State) (e : EvalEntry) (es : List EvalEntry) (op : BinOp),
    s.init = true → s.edisc = 0#16 → s.estk = e :: es → e.w.toNat % 256 = op.code.toNat →
    exec (.close f opr) s = .next { s with
      line := nextLine s, estk := es, acc := applyOp op e.a s.acc (e.w.getLsbD 9) }

/-- 45_close_group.md R118 (the spec's decision D19): any other entry is discarded. -/
def Obligations.CloseDiscardsAnyOtherEntry : Prop :=
  ∀ (f : FlagBits) (opr : Word) (s : State) (e : EvalEntry) (es : List EvalEntry),
    s.init = true → s.edisc = 0#16 → s.estk = e :: es →
    e.w.toNat % 256 ≠ 1 → e.w.toNat % 256 ≠ 2 → (e.w.toNat % 256 < 5 ∨ 17 < e.w.toNat % 256) →
    exec (.close f opr) s = .next { s with line := nextLine s, estk := es }

/-- 43_load_store.md section on the grouped LOAD (95_test_vectors.md W4): whatever runs between, the close
of a grouped LOAD loads what a direct LOAD of the computed address loads. -/
def Obligations.GroupedLoadLoadsLikeDirectLoad : Prop :=
  ∀ (f g h : FlagBits) (opr o : Word) (s t v : State), s.esp < 20 → s.edisc = 0#16 →
    exec (.loadGroup f opr) s = .next t →
    v.init = true → v.estk = t.estk → v.edisc = t.edisc → h.fi = false → h.fn = f.fn →
    ∃ u d, exec (.close g o) v = .next u ∧ exec (.load h v.acc) v = .next d ∧
      u.acc = d.acc ∧ u.estk = s.estk

/-- 40_engine.md R76 with 45_close_group.md R114: on a full stack, an open that is refused and its close
keep both stacks and the cells, and the accumulator stays as the group's inner lines left it. The count
of discarded opens is as before, but one less where it was saturated at 65535, since the open could not
count up (the spec's decisions D5 and D6). -/
def Obligations.RefusedGroupIsDiscardedByItsClose : Prop :=
  ∀ (i : Instr) (g : FlagBits) (o : Word) (s t v : State), s.esp = 20 →
    i.flagBits.fg = true →
    (i.opcode.toNat = 1 ∨ i.opcode.toNat = 2 ∨ (5 ≤ i.opcode.toNat ∧ i.opcode.toNat ≤ 17)) →
    i.wellFormed = true → exec i s = .next t → v.init = true → v.estk = t.estk →
    v.edisc = t.edisc →
    t.estk = s.estk ∧ t.cstk = s.cstk ∧ t.acc = s.acc ∧ t.mem = s.mem ∧
    ∃ u, exec (.close g o) v = .next u ∧ u.estk = s.estk ∧ u.cstk = v.cstk ∧
      u.edisc.toNat = min s.edisc.toNat 65534 ∧ u.acc = v.acc ∧ u.mem = v.mem

/-! ## The binary operators -/

/-- 44_binary_operators.md R99: `apply` on numbers (a zero divisor gives 0 by the spec's decision D4). -/
def Obligations.ApplyComputesEachFunction : Prop :=
  ∀ (a b : Word) (neg : Bool) (x y : Nat), x = a.toNat → y = operandNat b neg →
    (applyOp .and a b neg).toNat = x &&& y ∧ (applyOp .or a b neg).toNat = x ||| y ∧
    (applyOp .xor a b neg).toNat = x ^^^ y ∧ (applyOp .add a b neg).toNat = (x + y) % 65536 ∧
    (applyOp .sub a b neg).toNat = (x + 65536 - y) % 65536 ∧
    (applyOp .mul a b neg).toNat = (x * y) % 65536 ∧
    (applyOp .div a b neg).toNat = (if y = 0 then 0 else x / y) ∧
    (applyOp .gt a b neg).toNat = (if x > y then 1 else 0) ∧
    (applyOp .ge a b neg).toNat = (if x ≥ y then 1 else 0) ∧
    (applyOp .eq a b neg).toNat = (if x = y then 1 else 0) ∧
    (applyOp .ne a b neg).toNat = (if x = y then 0 else 1) ∧
    (applyOp .le a b neg).toNat = (if x ≤ y then 1 else 0) ∧
    (applyOp .lt a b neg).toNat = (if x < y then 1 else 0)

/-- 44_binary_operators.md R101, R102, R103: AND, OR and XOR, evaluated at once. -/
def Obligations.LogicOperatorsAreBitwise : Prop :=
  EvaluatesTo .and (fun a b => a &&& b) ∧ EvaluatesTo .or (fun a b => a ||| b) ∧
  EvaluatesTo .xor (fun a b => a ^^^ b)

/-- 44_binary_operators.md R104, R105, R106: ADD, SUB and MUL modulo 2^16, evaluated at once. -/
def Obligations.ArithmeticOperatorsWrap : Prop :=
  EvaluatesTo .add (fun a b => (a + b) % 65536) ∧
  EvaluatesTo .sub (fun a b => (a + 65536 - b) % 65536) ∧
  EvaluatesTo .mul (fun a b => (a * b) % 65536)

/-- 44_binary_operators.md R107 (a zero divisor by the spec's decision D4): DIV, evaluated at once. -/
def Obligations.DivisionRoundsDownAndByZeroIsZero : Prop :=
  EvaluatesTo .div (fun a b => if b = 0 then 0 else a / b)

/-- 44_binary_operators.md R108 to R113: the comparisons are unsigned and give 1 or 0. -/
def Obligations.ComparisonsAreUnsigned : Prop :=
  EvaluatesTo .gt (fun a b => if a > b then 1 else 0) ∧
  EvaluatesTo .ge (fun a b => if a ≥ b then 1 else 0) ∧
  EvaluatesTo .eq (fun a b => if a = b then 1 else 0) ∧
  EvaluatesTo .ne (fun a b => if a = b then 0 else 1) ∧
  EvaluatesTo .le (fun a b => if a ≤ b then 1 else 0) ∧
  EvaluatesTo .lt (fun a b => if a < b then 1 else 0)

/-! ## Control transfer -/

/-- 42_control_transfer.md R92. -/
def Obligations.JumpFollowsItsGate : Prop :=
  ∀ (f : FlagBits) (opr : Word) (s : State), s.init = true →
    exec (.jump f opr) s = .next { s with
      line := if f.fc = false ∨ ((s.acc != 0#16) ^^ f.fn) = true then opr else nextLine s }

/-- 42_control_transfer.md R93: a taken CALL pushes the next line; a full call stack or a false gate
makes it fall through. -/
def Obligations.CallPushesTheNextLine : Prop :=
  ∀ (f : FlagBits) (opr : Word) (s : State), s.init = true →
    ((f.fc = false ∨ ((s.acc != 0#16) ^^ f.fn) = true) → s.csp < 20 →
      exec (.call f opr) s = .next { s with line := opr, cstk := nextLine s :: s.cstk }) ∧
    ((f.fc = false ∨ ((s.acc != 0#16) ^^ f.fn) = true) → 20 ≤ s.csp →
      exec (.call f opr) s = .next { s with line := nextLine s }) ∧
    (f.fc = true → ((s.acc != 0#16) ^^ f.fn) = false →
      exec (.call f opr) s = .next { s with line := nextLine s })

/-- 42_control_transfer.md R94: a taken RET pops the call stack, and returns 65535 from an empty one; a
false gate makes it fall through. -/
def Obligations.RetPopsTheCallStack : Prop :=
  ∀ (f : FlagBits) (opr : Word) (s : State), s.init = true →
    (∀ l ls, (f.fc = false ∨ ((s.acc != 0#16) ^^ f.fn) = true) → s.cstk = l :: ls →
      exec (.ret f opr) s = .next { s with line := l, cstk := ls }) ∧
    ((f.fc = false ∨ ((s.acc != 0#16) ^^ f.fn) = true) → s.cstk = [] →
      exec (.ret f opr) s = .next { s with line := 65535#16 }) ∧
    (f.fc = true → ((s.acc != 0#16) ^^ f.fn) = false →
      exec (.ret f opr) s = .next { s with line := nextLine s })

/-- 42_control_transfer.md R93, R94 (95_test_vectors.md W5): a RET that finds the call stack as a taken
CALL left it resumes at the line after the CALL. -/
def Obligations.RetResumesAfterCall : Prop :=
  ∀ (f g : FlagBits) (opr o : Word) (s t v : State), f.fc = false → g.fc = false → s.csp < 20 →
    exec (.call f opr) s = .next t → v.init = true → v.cstk = t.cstk →
    t.line = opr ∧
    ∃ u, exec (.ret g o) v = .next u ∧ u.line = nextLine s ∧ u.cstk = s.cstk

/-! ## Rules of the whole machine -/

/-- 40_engine.md R70: an instruction other than JUMP, CALL and RET goes on at the next line. -/
def Obligations.OnlyTransfersReplaceTheNextLine : Prop :=
  ∀ (i : Instr) (s t : State), i.isTransfer = false → exec i s = .next t → t.line = nextLine s

/-- 10_state.md section 6 and 20_memory.md section 6: no instruction changes `INIT`, `SEQ`, the program
store or the host's side of the interface. -/
def Obligations.InstructionsKeepControlState : Prop :=
  ∀ (i : Instr) (s t : State), exec i s = .next t →
    t.init = s.init ∧ t.seq = s.seq ∧ t.prog = s.prog ∧ t.pending = s.pending ∧ t.reply = s.reply

/-- 70_reset_and_hazards.md section 4 (the two stacks are independent): only CALL and RET change the call
stack; JUMP, CALL and RET change neither the evaluation stack nor the accumulator nor a cell. -/
def Obligations.TransfersAndGroupsKeepApart : Prop :=
  ∀ (i : Instr) (s t : State), exec i s = .next t →
    (i.usesCallStack = false → t.cstk = s.cstk) ∧
    (i.isTransfer = true →
      t.estk = s.estk ∧ t.edisc = s.edisc ∧ t.acc = s.acc ∧ t.mem = s.mem)

/-- 20_memory.md section 3 (at most one access): a cell changes only where the instruction hands its
address to `MemSet`, and nothing changes where it hands none or an invalid one. -/
def Obligations.CellsChangeOnlyAtTheStoreTarget : Prop :=
  ∀ (i : Instr) (s t : State), exec i s = .next t →
    (storeTarget i s = none → t.mem = s.mem) ∧
    ∀ a, storeTarget i s = some a →
      (decodeAddr a = none → t.mem = s.mem) ∧
      ∀ k, k ≠ a.toNat → t.mem.read k = s.mem.read k

/-- 10_state.md section 6 (an execute step with `INIT` = 0 is refused by the model), and the "when" column
of 40_engine.md section 6: `start_scan` and a direct `execute` need `INIT` = 1. -/
def Obligations.ExecutionIsRefusedBeforeInit : Prop :=
  (∀ (i : Instr) (s : State), s.init = false → exec i s = .refused .notInitialised) ∧
  ∀ (s : State) (w opr line : Word) (rest : List HostOp), s.init = false → s.seq = .idle →
    (s.pending = .startScan :: rest ∨ s.pending = .execute w opr line :: rest) →
    step s = .refused .notInitialised

/-- 60_exceptions.md section 1 (no error stops the block): with `INIT` = 1, a step answers a next state,
unless it is the host that hands over a program of more than 65535 lines (log 13). -/
def Obligations.NoStepOfAnInitialisedBlockStops : Prop :=
  ∀ s : State, s.init = true →
    (∀ lines, HostOp.replaceProgram lines ∈ s.pending → lines.length ≤ 65535) →
    ∃ t, step s = .next t

/-- 10_state.md (the invariants of the stacks and of `EDISC`), 00_scope.md R7 and the canonical form of the
cells (log 7): every step keeps the invariant, whatever the host asks for. -/
def Obligations.StepKeepsTheInvariant : Prop :=
  ∀ s t : State, s.Inv → step s = .next t → t.Inv

/-- The invariant holds after reset. -/
def Obligations.ResetMeetsTheInvariant : Prop := State.reset.Inv

/-! ## The sequencer and the host -/

/-- 10_state.md section 8: the values the spec gives for reset. -/
def Obligations.ResetLeavesTheSpecsValues : Prop :=
  State.reset.acc = 0#16 ∧ State.reset.esp = 0 ∧ State.reset.csp = 0 ∧ State.reset.edisc = 0#16 ∧
  State.reset.init = true ∧ State.reset.seq = .idle

/-- 40_engine.md R78, R81: while a scan runs, the step executes the decoded line at `LINE`, with no host
operation before it, or after the host let the boundary pass. -/
def Obligations.StepRunsTheDecodedLine : Prop :=
  ∀ (s : State) (l : ProgLine), s.seq = .run → s.prog[s.line.toNat]? = some l →
    (s.hostQuiet = true → step s = exec (decodeLine l.w l.opr) s) ∧
    ∀ rest, s.pending = .pass :: rest →
      step s = exec (decodeLine l.w l.opr) { s with pending := rest }

/-- 40_engine.md R80: a scan ends at the first boundary where `LINE` is at or beyond `PROG_LEN`, which
the sentinel always is; no host operation comes before it, or the host let the boundary pass (`pass` is
the model's own, log 1). -/
def Obligations.ScanEndsAtOrBeyondProgramLength : Prop :=
  (∀ s : State, s.seq = .run → s.progLen ≤ s.line.toNat →
    (s.hostQuiet = true → step s = .next { s with seq := .idle }) ∧
    ∀ rest, s.pending = .pass :: rest →
      step s = .next { s with seq := .idle, pending := rest }) ∧
  ∀ s : State, s.seq = .run → s.hostQuiet = true → s.progLen ≤ 65535 → s.line = 65535#16 →
    step s = .next { s with seq := .idle }

/-- 40_engine.md R79: starting a scan changes only `SEQ` and `LINE` (and the model's own record of the
host, log 1). -/
def Obligations.StartScanBeginsAtLineZero : Prop :=
  ∀ (s : State) (rest : List HostOp), s.pending = .startScan :: rest → s.seq = .idle →
    s.init = true →
    step s = .next { s with line := 0#16, seq := .run, pending := rest, reply := none }

/-- 60_exceptions.md section 3 (power) and 40_engine.md sections 5 and 6 (the host may decline to start a
scan): while IDLE, with nothing asked or where the host lets the boundary pass, the block keeps all its
state. The list of what the host does and its entry `pass` are the model's own (log 1). -/
def Obligations.IdleBlockKeepsItsState : Prop :=
  ∀ s : State, s.seq = .idle →
    (s.pending = [] → step s = .next s) ∧
    ∀ rest, s.pending = .pass :: rest → step s = .next { s with pending := rest }

/-- 70_reset_and_hazards.md R131: `init` resets the registers and touches neither the cells of the bound
provider nor the program store. Nothing is said of `LINE`, which has no value until a scan starts
(10_state.md R29); the list of host operations and the reply are the model's own (logs 1 and 2). -/
def Obligations.InitResetsTheRegisters : Prop :=
  ∀ (s : State) (rest : List HostOp), s.pending = .init none :: rest → s.seq = .idle →
    ∃ t, step s = .next t ∧
      t = { s with
        acc := 0#16, estk := [], cstk := [], edisc := 0#16, init := true, seq := .idle,
        line := t.line, pending := rest, reply := none }

/-- That `LINE` keeps its value over an `init` is the model's choice (log 26): the spec gives it none until
a scan starts (10_state.md section 8). -/
def Obligations.InitKeepsTheLine : Prop :=
  ∀ (s : State) (provider : Option (List (Word × Word))) (rest : List HostOp),
    s.pending = .init provider :: rest → s.seq = .idle →
    ∃ t, step s = .next t ∧ t.line = s.line

/-- 70_reset_and_hazards.md section 1 (`init` may bind a different provider), in the model's form of a
provider (log 20): the cells are those of the new provider, the last value given for an address counts,
and a cell that is not given holds zero. Nothing is said of `LINE`. -/
def Obligations.InitBindsADifferentProvider : Prop :=
  ∀ (s : State) (cells : List (Word × Word)) (rest : List HostOp),
    s.pending = .init (some cells) :: rest → s.seq = .idle →
    ∃ t, step s = .next t ∧
      t = { s with
        acc := 0#16, estk := [], cstk := [], edisc := 0#16, init := true, seq := .idle,
        line := t.line, pending := rest, reply := none, mem := t.mem } ∧
      (∀ a, (∀ c ∈ cells, c.1 ≠ a) → memGet t.mem a false = 0#16) ∧
      ∀ front back a v, cells = front ++ (a, v) :: back → (∀ c ∈ back, c.1 ≠ a) →
        ∀ r i, decodeAddr a = some (r, i) →
          (r.isBit = true → (memGet t.mem a false).toNat = if v.toNat = 0 then 0 else 1) ∧
          (r.isBit = false → memGet t.mem a false = v)

/-- 40_engine.md R84: a direct `execute` runs one instruction at the host's line, returns its next line and
leaves `SEQ` and the sequencer's `LINE`. Where the next line is handed over is the model's own (log 2). -/
def Obligations.DirectExecuteRunsOneInstruction : Prop :=
  ∀ (s : State) (w opr line : Word) (rest : List HostOp),
    s.pending = .execute w opr line :: rest → s.seq = .idle → s.init = true →
    ∃ u, exec (decodeLine w opr) { s with pending := rest, line := line } = .next u ∧ u.seq = s.seq ∧
      step s = .next { u with line := s.line, reply := some u.line }

/-- 40_engine.md R85, and the `parse` row of section 6: both may come at any boundary, return a value and
change nothing of the block. -/
def Obligations.HostReadsChangeNothing : Prop :=
  ∀ (s : State) (rest : List HostOp),
    (s.pending = .getAccumulator :: rest →
      step s = .next { s with pending := rest, reply := some s.acc }) ∧
    ∀ token, s.pending = .parse token :: rest →
      step s = .next { s with pending := rest, reply := some (parse token) }

/-- 40_engine.md section 6 (the environment's writes): the environment changes a cell while IDLE, or
between two steps of a scan where `HOST_MEM_INTERLEAVE` holds; where it does not, the scan's next line
runs on the cells as they are. That the write waits meanwhile is the model's choice (log 1). -/
def Obligations.HostWritesCellsOnlyWhereAllowed : Prop :=
  ∀ (s : State) (a v : Word) (rest : List HostOp), s.pending = .writeCell a v :: rest →
    (s.seq = .idle ∨ Config.hostMemInterleave = true →
      ∃ t, step s = .next t ∧ t = { s with pending := rest, reply := none, mem := t.mem } ∧
        CellStored s.mem t.mem a v false) ∧
    ∀ l, s.seq = .run → s.prog[s.line.toNat]? = some l →
      Config.hostMemInterleave = true ∨ step s = exec (decodeLine l.w l.opr) s

/-- 20_memory.md section 6 (instruction fetch): the program changes only while IDLE, and a scan that runs
keeps it and stays initialised. That a program of more than 65535 lines is refused is the model's
choice (log 13). -/
def Obligations.ProgramChangesOnlyWhileIdle : Prop :=
  (∀ (s : State) (lines : List ProgLine) (rest : List HostOp),
    s.pending = .replaceProgram lines :: rest → s.seq = .idle → lines.length ≤ 65535 →
    step s = .next { s with prog := lines, pending := rest, reply := none }) ∧
  (∀ (s : State) (lines : List ProgLine) (rest : List HostOp),
    s.pending = .replaceProgram lines :: rest → s.seq = .idle → 65535 < lines.length →
    step s = .refused .programTooLong) ∧
  ∀ s t : State, s.seq = .run → step s = .next t → t.prog = s.prog ∧ t.init = s.init
end

