-- ==== Sys2Proof/Laws/Decode.lean ====
section
/-! SUPPORT. The fields of an encoded word, and the cases of the decoder. -/

namespace Sys2Proof

@[simp] theorem opField_irWord (op : BitVec 8) (f : FlagBits) : opField (irWord op f) = op := by
  ext i hi
  simp only [opField, irWord, BitVec.getElem_extractLsb', BitVec.getLsbD_append, Nat.zero_add]
  simp [hi]

@[simp] theorem flagBitsOf_irWord (op : BitVec 8) (f : FlagBits) : flagBitsOf (irWord op f) = f := by
  obtain ⟨rsv, fg, fc, fn, fi⟩ := f
  simp only [flagBitsOf, irWord, FlagBits.mk.injEq]
  refine ⟨?_, ?_, ?_, ?_, ?_⟩
  · ext i hi
    simp only [BitVec.getElem_extractLsb', BitVec.getLsbD_append]
    have h1 : ¬ 12 + i < 8 := by omega
    have h2 : ¬ 12 + i - 8 < 1 := by omega
    have h3 : ¬ 12 + i - 8 - 1 < 1 := by omega
    have h4 : ¬ 12 + i - 8 - 1 - 1 < 1 := by omega
    have h5 : ¬ 12 + i - 8 - 1 - 1 - 1 < 1 := by omega
    have h6 : 12 + i - 8 - 1 - 1 - 1 - 1 = i := by omega
    simp only [h1, h2, h3, h4, h5, h6, if_false]
    simp [hi]
  all_goals simp only [BitVec.getLsbD_append]; simp

/-- A word is its opcode and its flag bits (spec/30_encoding.md R51). -/
theorem irWord_fields (w : Word) : irWord (opField w) (flagBitsOf w) = w := by
  ext i hi
  rw [← BitVec.getLsbD_eq_getElem, ← BitVec.getLsbD_eq_getElem]
  simp only [opField, irWord, flagBitsOf, BitVec.getLsbD_append, BitVec.getLsbD_extractLsb',
    BitVec.getLsbD_ofBool]
  interval_cases i <;> simp

@[simp] theorem BinOp.ofCode_code (op : BinOp) : BinOp.ofCode op.code = some op := by
  cases op <;> rfl

@[simp] theorem BinOp.instr_opcode (op : BinOp) (f : FlagBits) (opr : Word) :
    (op.instr f opr).opcode = op.code := by cases op <;> rfl

@[simp] theorem BinOp.instr_flagBits (op : BinOp) (f : FlagBits) (opr : Word) :
    (op.instr f opr).flagBits = f := by cases op <;> rfl

@[simp] theorem BinOp.instr_operand (op : BinOp) (f : FlagBits) (opr : Word) :
    (op.instr f opr).operand = opr := by cases op <;> rfl

/-- The decoder keeps the flag bits of the word. -/
@[simp] theorem decodeLine_flagBits (w opr : Word) : (decodeLine w opr).flagBits = flagBitsOf w := by
  unfold decodeLine
  split <;> first | rfl | (dsimp only; split <;> rfl)

/-- The decoder keeps the operand. -/
@[simp] theorem decodeLine_operand (w opr : Word) : (decodeLine w opr).operand = opr := by
  unfold decodeLine
  split <;> first | rfl | (dsimp only; split <;> rfl)

end Sys2Proof
end

