-- ==== Sys2Proof/Laws/Memory.lean ====
section
/-! SUPPORT. The cells: reading after writing, the canonical form, and what the two access primitives
can do. -/

namespace Sys2Proof.Machine

/-! ## Lists of cells -/

theorem lookupCell_filter_self (cells : List (Nat × Word)) (k : Nat) :
    lookupCell (cells.filter fun c => c.1 != k) k = Memory.unlisted := by
  induction cells with
  | nil => rfl
  | cons c rest ih =>
    by_cases h : c.1 = k
    · simpa [List.filter_cons, h] using ih
    · simpa [List.filter_cons, h, lookupCell] using ih

theorem lookupCell_filter_ne (cells : List (Nat × Word)) {j k : Nat} (h : j ≠ k) :
    lookupCell (cells.filter fun c => c.1 != k) j = lookupCell cells j := by
  induction cells with
  | nil => rfl
  | cons c rest ih =>
    by_cases hk : c.1 = k
    · have : c.1 ≠ j := by omega
      simp [hk, lookupCell, ih, show ¬ k = j by omega]
    · simp [hk, lookupCell, ih]

theorem lookupCell_insertCell_ne (cells : List (Nat × Word)) (v : Word) {j k : Nat} (h : j ≠ k) :
    lookupCell (insertCell k v cells) j = lookupCell cells j := by
  induction cells with
  | nil => simp [insertCell, lookupCell, show ¬ k = j by omega]
  | cons c rest ih =>
    simp only [insertCell]
    split
    · simp [lookupCell, show ¬ k = j by omega]
    · simp [lookupCell, ih]

theorem lookupCell_insertCell_self (cells : List (Nat × Word)) (v : Word) (k : Nat)
    (h : ∀ c ∈ cells, c.1 ≠ k) : lookupCell (insertCell k v cells) k = v := by
  induction cells with
  | nil => simp [insertCell, lookupCell]
  | cons c rest ih =>
    simp only [insertCell]
    split
    · simp [lookupCell]
    · have hc : c.1 ≠ k := h c (by simp)
      simp [lookupCell, hc, ih fun d hd => h d (by simp [hd])]

theorem mem_insertCell (cells : List (Nat × Word)) (k : Nat) (v : Word) (c : Nat × Word) :
    c ∈ insertCell k v cells ↔ c = (k, v) ∨ c ∈ cells := by
  induction cells with
  | nil => simp [insertCell]
  | cons d rest ih =>
    simp only [insertCell]
    split
    · simp
    · simp [ih, or_left_comm]

theorem pairwise_insertCell (cells : List (Nat × Word)) (k : Nat) (v : Word)
    (hs : cells.Pairwise fun c d => c.1 < d.1) (hk : ∀ c ∈ cells, c.1 ≠ k) :
    (insertCell k v cells).Pairwise fun c d => c.1 < d.1 := by
  induction cells with
  | nil => simp [insertCell]
  | cons d rest ih =>
    obtain ⟨hd, hr⟩ := List.pairwise_cons.mp hs
    simp only [insertCell]
    split
    · rename_i hlt
      refine List.pairwise_cons.mpr ⟨fun c hc => ?_, hs⟩
      rcases List.mem_cons.mp hc with rfl | hc
      · exact hlt
      · exact hlt.trans (hd c hc)
    · rename_i hge
      have hne : d.1 ≠ k := hk d (by simp)
      refine List.pairwise_cons.mpr ⟨fun c hc => ?_, ih hr fun c hc => hk c (by simp [hc])⟩
      rcases (mem_insertCell rest k v c).mp hc with rfl | hc
      · simp only; omega
      · exact hd c hc

/-! ## Reading and writing one cell -/

@[simp] theorem Memory.read_write_self (m : Memory) (k : Nat) (v : Word) :
    (m.write k v).read k = v := by
  unfold Memory.write Memory.read
  split
  · rename_i h
    rw [lookupCell_filter_self, h]
  · exact lookupCell_insertCell_self _ _ _ (by simp)

theorem Memory.read_write_ne (m : Memory) (v : Word) {j k : Nat} (h : j ≠ k) :
    (m.write k v).read j = m.read j := by
  unfold Memory.write Memory.read
  split
  · exact lookupCell_filter_ne _ h
  · rw [lookupCell_insertCell_ne _ _ h, lookupCell_filter_ne _ h]

/-- What a write leaves in every cell. -/
theorem Memory.read_write (m : Memory) (j k : Nat) (v : Word) :
    (m.write k v).read j = if j = k then v else m.read j := by
  split
  · rename_i h
    rw [h, Memory.read_write_self]
  · exact Memory.read_write_ne m v ‹_›

/-- A write keeps the canonical form, if the new value may stand in the cell. -/
theorem Memory.wf_write (m : Memory) (k : Nat) (v : Word) (hm : m.wf = true)
    (hv : v ≠ Memory.unlisted → cellOk (k, v) = true) : (m.write k v).wf = true := by
  simp only [Memory.wf, Bool.and_eq_true, decide_eq_true_eq, List.all_eq_true] at hm ⊢
  obtain ⟨hs, hc⟩ := hm
  have hs' := hs.filter fun c => c.1 != k
  unfold Memory.write
  split
  · exact ⟨hs', fun c h => hc c (List.mem_of_mem_filter h)⟩
  · rename_i hne
    refine ⟨pairwise_insertCell _ _ _ hs' (by simp), fun c h => ?_⟩
    rcases (mem_insertCell _ _ _ _).mp h with rfl | h
    · exact hv hne
    · exact hc c (List.mem_of_mem_filter h)

/-! ## The address decoder -/

/-- The addresses of one cell of one region (spec/20_memory.md R33, R47). -/
theorem decodeNat_eq_some {a : Nat} {r : Region} {i : Nat} :
    decodeNat a = some (r, i) ↔ i < Config.slots ∧ a = cellKey r i := by
  unfold decodeNat
  simp only [Config.slots]
  split
  · rename_i h
    simp only [reduceCtorEq, false_iff, not_and]
    intro hi he
    cases r <;> simp only [cellKey, Region.digit] at he <;> omega
  · split <;> cases r <;> simp_all only [imp_false, cellKey, Region.digit, Option.some.injEq,
      Prod.mk.injEq, reduceCtorEq, true_and, false_and, false_iff, not_and] <;> omega

@[simp] theorem decodeNat_cellKey (r : Region) {i : Nat} (hi : i < Config.slots) :
    decodeNat (cellKey r i) = some (r, i) := decodeNat_eq_some.mpr ⟨hi, rfl⟩

theorem decodeAddr_eq_some {a : Word} {r : Region} {i : Nat} (h : decodeAddr a = some (r, i)) :
    i < Config.slots ∧ a.toNat = cellKey r i := decodeNat_eq_some.mp h

/-! ## The access primitives -/

theorem memGet_invalid (m : Memory) {a : Word} (inv : Bool) (h : decodeAddr a = none) :
    memGet m a inv = 0#16 := by simp [memGet, h]

theorem memGet_bit (m : Memory) {a : Word} (inv : Bool) {r : Region} {i : Nat}
    (h : decodeAddr a = some (r, i)) (hr : r.isBit = true) :
    memGet m a inv = zext16 (m.bit r i ^^ inv) := by
  simp only [memGet, h, hr, if_true]
  cases m.bit r i <;> cases inv <;> rfl

theorem memGet_word (m : Memory) {a : Word} (inv : Bool) {r : Region} {i : Nat}
    (h : decodeAddr a = some (r, i)) (hr : r.isBit = false) :
    memGet m a inv = if inv then ~~~(m.word r i) else m.word r i := by
  simp [memGet, h, hr]

/-- What a `MemSet` can do: nothing at an invalid address, else one cell is written with a value that
may stand in it. -/
theorem memSet_cases (m : Memory) (a v : Word) (inv : Bool) :
    (decodeAddr a = none ∧ memSet m a v inv = m) ∨
    ∃ r i u, decodeAddr a = some (r, i) ∧ memSet m a v inv = m.write a.toNat u ∧
      u = (if r.isBit then zext16 ((v != 0#16) ^^ inv) else if inv then ~~~v else v) ∧
      (u ≠ Memory.unlisted → cellOk (a.toNat, u) = true) := by
  unfold memSet
  split
  · rename_i h
    exact .inl ⟨h, rfl⟩
  · rename_i r i h
    have hk := (decodeAddr_eq_some h).2
    have hd : decodeNat a.toNat = some (r, i) := h
    refine .inr ⟨r, i, _, h, ?_, rfl, ?_⟩
    · rw [hk]
      split <;> rfl
    · intro hu
      simp only [cellOk, hd, Bool.and_eq_true, bne_iff_ne, ne_eq]
      refine ⟨hu, ?_⟩
      cases hr : r.isBit
      · simp
      · simp only [hr, if_true] at hu ⊢
        cases hb : ((v != 0#16) ^^ inv)
        · simp [hb, zext16, Memory.unlisted] at hu
        · simp [zext16]

/-- A `MemSet` leaves every cell but the addressed one. -/
theorem memSet_read_ne (m : Memory) (a v : Word) (inv : Bool) {k : Nat} (hk : k ≠ a.toNat) :
    (memSet m a v inv).read k = m.read k := by
  rcases memSet_cases m a v inv with ⟨-, h⟩ | ⟨r, i, u, -, h, -, -⟩
  · rw [h]
  · rw [h, Memory.read_write_ne _ _ hk]

/-- Every operation that writes cells keeps the canonical form. -/
theorem memSet_wf (m : Memory) (a v : Word) (inv : Bool) (hm : m.wf = true) :
    (memSet m a v inv).wf = true := by
  rcases memSet_cases m a v inv with ⟨-, h⟩ | ⟨r, i, u, -, h, -, hu⟩
  · rw [h, hm]
  · rw [h]
    exact Memory.wf_write _ _ _ hm hu

theorem reset_mem_wf : State.reset.mem.wf = true := by decide

end Sys2Proof.Machine
end

