-- ==== Sys2Proof/Laws/State.lean ====
section
/-! SUPPORT. What each update of the state leaves in each field. -/

namespace Sys2Proof.Machine

section setAcc
variable (s : State) (v : Word)

@[simp] theorem State.setAcc_acc : (s.setAcc v).acc = v := rfl
@[simp] theorem State.setAcc_estk : (s.setAcc v).estk = s.estk := rfl
@[simp] theorem State.setAcc_cstk : (s.setAcc v).cstk = s.cstk := rfl
@[simp] theorem State.setAcc_edisc : (s.setAcc v).edisc = s.edisc := rfl
@[simp] theorem State.setAcc_init : (s.setAcc v).init = s.init := rfl
@[simp] theorem State.setAcc_seq : (s.setAcc v).seq = s.seq := rfl
@[simp] theorem State.setAcc_line : (s.setAcc v).line = s.line := rfl
@[simp] theorem State.setAcc_mem : (s.setAcc v).mem = s.mem := rfl
@[simp] theorem State.setAcc_prog : (s.setAcc v).prog = s.prog := rfl
@[simp] theorem State.setAcc_pending : (s.setAcc v).pending = s.pending := rfl
@[simp] theorem State.setAcc_reply : (s.setAcc v).reply = s.reply := rfl

end setAcc

section setEstk
variable (s : State) (es : List EvalEntry)

@[simp] theorem State.setEstk_acc : (s.setEstk es).acc = s.acc := rfl
@[simp] theorem State.setEstk_estk : (s.setEstk es).estk = es := rfl
@[simp] theorem State.setEstk_cstk : (s.setEstk es).cstk = s.cstk := rfl
@[simp] theorem State.setEstk_edisc : (s.setEstk es).edisc = s.edisc := rfl
@[simp] theorem State.setEstk_init : (s.setEstk es).init = s.init := rfl
@[simp] theorem State.setEstk_seq : (s.setEstk es).seq = s.seq := rfl
@[simp] theorem State.setEstk_line : (s.setEstk es).line = s.line := rfl
@[simp] theorem State.setEstk_mem : (s.setEstk es).mem = s.mem := rfl
@[simp] theorem State.setEstk_prog : (s.setEstk es).prog = s.prog := rfl
@[simp] theorem State.setEstk_pending : (s.setEstk es).pending = s.pending := rfl
@[simp] theorem State.setEstk_reply : (s.setEstk es).reply = s.reply := rfl

end setEstk

section setCstk
variable (s : State) (ls : List Word)

@[simp] theorem State.setCstk_acc : (s.setCstk ls).acc = s.acc := rfl
@[simp] theorem State.setCstk_estk : (s.setCstk ls).estk = s.estk := rfl
@[simp] theorem State.setCstk_cstk : (s.setCstk ls).cstk = ls := rfl
@[simp] theorem State.setCstk_edisc : (s.setCstk ls).edisc = s.edisc := rfl
@[simp] theorem State.setCstk_init : (s.setCstk ls).init = s.init := rfl
@[simp] theorem State.setCstk_seq : (s.setCstk ls).seq = s.seq := rfl
@[simp] theorem State.setCstk_line : (s.setCstk ls).line = s.line := rfl
@[simp] theorem State.setCstk_mem : (s.setCstk ls).mem = s.mem := rfl
@[simp] theorem State.setCstk_prog : (s.setCstk ls).prog = s.prog := rfl
@[simp] theorem State.setCstk_pending : (s.setCstk ls).pending = s.pending := rfl
@[simp] theorem State.setCstk_reply : (s.setCstk ls).reply = s.reply := rfl

end setCstk

section setEdisc
variable (s : State) (v : Word)

@[simp] theorem State.setEdisc_acc : (s.setEdisc v).acc = s.acc := rfl
@[simp] theorem State.setEdisc_estk : (s.setEdisc v).estk = s.estk := rfl
@[simp] theorem State.setEdisc_cstk : (s.setEdisc v).cstk = s.cstk := rfl
@[simp] theorem State.setEdisc_edisc : (s.setEdisc v).edisc = v := rfl
@[simp] theorem State.setEdisc_init : (s.setEdisc v).init = s.init := rfl
@[simp] theorem State.setEdisc_seq : (s.setEdisc v).seq = s.seq := rfl
@[simp] theorem State.setEdisc_line : (s.setEdisc v).line = s.line := rfl
@[simp] theorem State.setEdisc_mem : (s.setEdisc v).mem = s.mem := rfl
@[simp] theorem State.setEdisc_prog : (s.setEdisc v).prog = s.prog := rfl
@[simp] theorem State.setEdisc_pending : (s.setEdisc v).pending = s.pending := rfl
@[simp] theorem State.setEdisc_reply : (s.setEdisc v).reply = s.reply := rfl

end setEdisc

section setSeq
variable (s : State) (q : SeqState)

@[simp] theorem State.setSeq_acc : (s.setSeq q).acc = s.acc := rfl
@[simp] theorem State.setSeq_estk : (s.setSeq q).estk = s.estk := rfl
@[simp] theorem State.setSeq_cstk : (s.setSeq q).cstk = s.cstk := rfl
@[simp] theorem State.setSeq_edisc : (s.setSeq q).edisc = s.edisc := rfl
@[simp] theorem State.setSeq_init : (s.setSeq q).init = s.init := rfl
@[simp] theorem State.setSeq_seq : (s.setSeq q).seq = q := rfl
@[simp] theorem State.setSeq_line : (s.setSeq q).line = s.line := rfl
@[simp] theorem State.setSeq_mem : (s.setSeq q).mem = s.mem := rfl
@[simp] theorem State.setSeq_prog : (s.setSeq q).prog = s.prog := rfl
@[simp] theorem State.setSeq_pending : (s.setSeq q).pending = s.pending := rfl
@[simp] theorem State.setSeq_reply : (s.setSeq q).reply = s.reply := rfl

end setSeq

section setLine
variable (s : State) (l : Word)

@[simp] theorem State.setLine_acc : (s.setLine l).acc = s.acc := rfl
@[simp] theorem State.setLine_estk : (s.setLine l).estk = s.estk := rfl
@[simp] theorem State.setLine_cstk : (s.setLine l).cstk = s.cstk := rfl
@[simp] theorem State.setLine_edisc : (s.setLine l).edisc = s.edisc := rfl
@[simp] theorem State.setLine_init : (s.setLine l).init = s.init := rfl
@[simp] theorem State.setLine_seq : (s.setLine l).seq = s.seq := rfl
@[simp] theorem State.setLine_line : (s.setLine l).line = l := rfl
@[simp] theorem State.setLine_mem : (s.setLine l).mem = s.mem := rfl
@[simp] theorem State.setLine_prog : (s.setLine l).prog = s.prog := rfl
@[simp] theorem State.setLine_pending : (s.setLine l).pending = s.pending := rfl
@[simp] theorem State.setLine_reply : (s.setLine l).reply = s.reply := rfl

end setLine

section setMem
variable (s : State) (m : Memory)

@[simp] theorem State.setMem_acc : (s.setMem m).acc = s.acc := rfl
@[simp] theorem State.setMem_estk : (s.setMem m).estk = s.estk := rfl
@[simp] theorem State.setMem_cstk : (s.setMem m).cstk = s.cstk := rfl
@[simp] theorem State.setMem_edisc : (s.setMem m).edisc = s.edisc := rfl
@[simp] theorem State.setMem_init : (s.setMem m).init = s.init := rfl
@[simp] theorem State.setMem_seq : (s.setMem m).seq = s.seq := rfl
@[simp] theorem State.setMem_line : (s.setMem m).line = s.line := rfl
@[simp] theorem State.setMem_mem : (s.setMem m).mem = m := rfl
@[simp] theorem State.setMem_prog : (s.setMem m).prog = s.prog := rfl
@[simp] theorem State.setMem_pending : (s.setMem m).pending = s.pending := rfl
@[simp] theorem State.setMem_reply : (s.setMem m).reply = s.reply := rfl

end setMem

section setProg
variable (s : State) (p : List ProgLine)

@[simp] theorem State.setProg_acc : (s.setProg p).acc = s.acc := rfl
@[simp] theorem State.setProg_estk : (s.setProg p).estk = s.estk := rfl
@[simp] theorem State.setProg_cstk : (s.setProg p).cstk = s.cstk := rfl
@[simp] theorem State.setProg_edisc : (s.setProg p).edisc = s.edisc := rfl
@[simp] theorem State.setProg_init : (s.setProg p).init = s.init := rfl
@[simp] theorem State.setProg_seq : (s.setProg p).seq = s.seq := rfl
@[simp] theorem State.setProg_line : (s.setProg p).line = s.line := rfl
@[simp] theorem State.setProg_mem : (s.setProg p).mem = s.mem := rfl
@[simp] theorem State.setProg_prog : (s.setProg p).prog = p := rfl
@[simp] theorem State.setProg_pending : (s.setProg p).pending = s.pending := rfl
@[simp] theorem State.setProg_reply : (s.setProg p).reply = s.reply := rfl

end setProg

section setPending
variable (s : State) (ops : List HostOp)

@[simp] theorem State.setPending_acc : (s.setPending ops).acc = s.acc := rfl
@[simp] theorem State.setPending_estk : (s.setPending ops).estk = s.estk := rfl
@[simp] theorem State.setPending_cstk : (s.setPending ops).cstk = s.cstk := rfl
@[simp] theorem State.setPending_edisc : (s.setPending ops).edisc = s.edisc := rfl
@[simp] theorem State.setPending_init : (s.setPending ops).init = s.init := rfl
@[simp] theorem State.setPending_seq : (s.setPending ops).seq = s.seq := rfl
@[simp] theorem State.setPending_line : (s.setPending ops).line = s.line := rfl
@[simp] theorem State.setPending_mem : (s.setPending ops).mem = s.mem := rfl
@[simp] theorem State.setPending_prog : (s.setPending ops).prog = s.prog := rfl
@[simp] theorem State.setPending_pending : (s.setPending ops).pending = ops := rfl
@[simp] theorem State.setPending_reply : (s.setPending ops).reply = s.reply := rfl

end setPending

section setReply
variable (s : State) (r : Option Word)

@[simp] theorem State.setReply_acc : (s.setReply r).acc = s.acc := rfl
@[simp] theorem State.setReply_estk : (s.setReply r).estk = s.estk := rfl
@[simp] theorem State.setReply_cstk : (s.setReply r).cstk = s.cstk := rfl
@[simp] theorem State.setReply_edisc : (s.setReply r).edisc = s.edisc := rfl
@[simp] theorem State.setReply_init : (s.setReply r).init = s.init := rfl
@[simp] theorem State.setReply_seq : (s.setReply r).seq = s.seq := rfl
@[simp] theorem State.setReply_line : (s.setReply r).line = s.line := rfl
@[simp] theorem State.setReply_mem : (s.setReply r).mem = s.mem := rfl
@[simp] theorem State.setReply_prog : (s.setReply r).prog = s.prog := rfl
@[simp] theorem State.setReply_pending : (s.setReply r).pending = s.pending := rfl
@[simp] theorem State.setReply_reply : (s.setReply r).reply = r := rfl

end setReply

end Sys2Proof.Machine
end

