-- ==== Sys2Proof/Laws/Ops.lean ====
section
/-! SUPPORT. What each shared operation of the machine can do, said once. -/

namespace Sys2Proof.Machine

/-! ## The stacks -/

theorem ePush_cases (w a : Word) (s : State) :
    (s.esp < Config.evalDepth ∧ ePush w a s = some (s.setEstk (⟨w, a⟩ :: s.estk))) ∨
      (Config.evalDepth ≤ s.esp ∧ ePush w a s = none) := by
  unfold ePush
  split
  · exact .inl ⟨‹_›, rfl⟩
  · exact .inr ⟨not_lt.mp ‹_›, rfl⟩

theorem ePop_eq_some {s s' : State} {e : EvalEntry} :
    ePop s = some (e, s') ↔ ∃ es, s.estk = e :: es ∧ s' = s.setEstk es := by
  unfold ePop
  split
  · rename_i h
    simp [h]
  · rename_i d es h
    simp only [Option.some.injEq, Prod.mk.injEq, h, List.cons.injEq]
    constructor
    · rintro ⟨rfl, rfl⟩
      exact ⟨es, ⟨rfl, rfl⟩, rfl⟩
    · rintro ⟨es, ⟨rfl, rfl⟩, rfl⟩
      exact ⟨rfl, rfl⟩

theorem ePop_eq_none {s : State} : ePop s = none ↔ s.estk = [] := by
  unfold ePop
  split <;> simp [*]

theorem cPush_cases (l : Word) (s : State) :
    (s.csp < Config.callDepth ∧ cPush l s = some (s.setCstk (l :: s.cstk))) ∨
      (Config.callDepth ≤ s.csp ∧ cPush l s = none) := by
  unfold cPush
  split
  · exact .inl ⟨‹_›, rfl⟩
  · exact .inr ⟨not_lt.mp ‹_›, rfl⟩

theorem cPop_eq_some {s s' : State} {l : Word} :
    cPop s = some (l, s') ↔ ∃ ls, s.cstk = l :: ls ∧ s' = s.setCstk ls := by
  unfold cPop
  split
  · rename_i h
    simp [h]
  · rename_i k ls h
    simp only [Option.some.injEq, Prod.mk.injEq, h, List.cons.injEq]
    constructor
    · rintro ⟨rfl, rfl⟩
      exact ⟨ls, ⟨rfl, rfl⟩, rfl⟩
    · rintro ⟨ls, ⟨rfl, rfl⟩, rfl⟩
      exact ⟨rfl, rfl⟩

theorem cPop_eq_none {s : State} : cPop s = none ↔ s.cstk = [] := by
  unfold cPop
  split <;> simp [*]

/-! ## Groups -/

theorem ediscUp_toNat (d : Word) : (ediscUp d).toNat = min (d.toNat + 1) 65535 := by
  simp only [ediscUp, Config.ediscMax, BitVec.toNat_ofNat]
  omega

/-- A group open pushes or is counted, and does nothing else. -/
theorem groupOpen_cases (w v : Word) (s : State) :
    (s.esp < Config.evalDepth ∧
        groupOpen w v s = (s.setEstk (⟨w, s.acc⟩ :: s.estk)).setAcc v) ∨
      (Config.evalDepth ≤ s.esp ∧ groupOpen w v s = s.setEdisc (ediscUp s.edisc)) := by
  unfold groupOpen
  rcases ePush_cases w s.acc s with ⟨hlt, h⟩ | ⟨hge, h⟩
  · exact .inl ⟨hlt, by rw [h]⟩
  · exact .inr ⟨hge, by rw [h]⟩

/-- A binary operator opens a group or computes, and does nothing else. -/
theorem binaryOp_cases (op : BinOp) (f : FlagBits) (opr : Word) (s : State) :
    (f.fg = true ∧ binaryOp op f opr s = groupOpen (irWord op.code f) (binValue f opr s) s) ∨
      (f.fg = false ∧
        binaryOp op f opr s = s.setAcc (applyOp op s.acc (binValue f opr s) f.fn)) := by
  unfold binaryOp
  cases f.fg <;> simp

/-- What completing a deferred instruction can do. -/
theorem completeDeferred_cases (e : EvalEntry) (s : State) :
    (opField e.w = 1#8 ∧
        completeDeferred e s = s.setAcc (memGet s.mem s.acc (flagBitsOf e.w).fn)) ∨
      (opField e.w = 2#8 ∧
        completeDeferred e s = (store s.acc e.a (flagBitsOf e.w).fn s).setAcc e.a) ∨
      (∃ op, opField e.w = op.code ∧
        completeDeferred e s = s.setAcc (applyOp op e.a s.acc (flagBitsOf e.w).fn)) ∨
      (opField e.w ≠ 1#8 ∧ opField e.w ≠ 2#8 ∧ BinOp.ofCode (opField e.w) = none ∧
        completeDeferred e s = s) := by
  have code {op : BinOp} (h : BinOp.ofCode (opField e.w) = some op) : opField e.w = op.code := by
    apply BitVec.eq_of_toNat_eq
    unfold BinOp.ofCode at h
    split at h <;> cases h <;> assumption
  unfold completeDeferred
  simp only
  split
  · exact .inl ⟨BitVec.eq_of_toNat_eq ‹_›, rfl⟩
  · exact .inr (.inl ⟨BitVec.eq_of_toNat_eq ‹_›, rfl⟩)
  · rename_i h1 h2
    split
    · rename_i op h
      exact .inr (.inr (.inl ⟨op, code h, rfl⟩))
    · rename_i h
      refine .inr (.inr (.inr ⟨fun hc => h1 ?_, fun hc => h2 ?_, h, rfl⟩)) <;> rw [hc] <;> rfl

/-- What a close-group can do. -/
theorem closeGroup_cases (s : State) :
    (s.edisc ≠ 0#16 ∧ closeGroup s = s.setEdisc (s.edisc - 1#16)) ∨
      (s.edisc = 0#16 ∧ s.estk = [] ∧ closeGroup s = s) ∨
      (s.edisc = 0#16 ∧ ∃ e es, s.estk = e :: es ∧
        closeGroup s = completeDeferred e (s.setEstk es)) := by
  unfold closeGroup
  split
  · exact .inl ⟨‹_›, rfl⟩
  · rename_i h
    have h0 : s.edisc = 0#16 := not_not.mp h
    split
    · exact .inr (.inl ⟨h0, ePop_eq_none.mp ‹_›, rfl⟩)
    · rename_i e s' hp
      obtain ⟨es, he, rfl⟩ := ePop_eq_some.mp hp
      exact .inr (.inr ⟨h0, e, es, he, rfl⟩)

/-! ## Control transfer -/

theorem callLine_cases (opr : Word) (s : State) :
    (s.csp < Config.callDepth ∧
        callLine opr s = (s.setCstk (s.line :: s.cstk)).setLine opr) ∨
      (Config.callDepth ≤ s.csp ∧ callLine opr s = s) := by
  unfold callLine
  rcases cPush_cases s.line s with ⟨hlt, h⟩ | ⟨hge, h⟩
  · exact .inl ⟨hlt, by rw [h]⟩
  · exact .inr ⟨hge, by rw [h]⟩

theorem returnLine_cases (s : State) :
    (s.cstk = [] ∧ returnLine s = s.setLine Config.sentinel) ∨
      (∃ l ls, s.cstk = l :: ls ∧ returnLine s = (s.setCstk ls).setLine l) := by
  unfold returnLine
  split
  · rename_i l s' hp
    obtain ⟨ls, hl, rfl⟩ := cPop_eq_some.mp hp
    exact .inr ⟨l, ls, hl, rfl⟩
  · exact .inl ⟨cPop_eq_none.mp ‹_›, rfl⟩

/-! ## The execute step -/

/-- An execute step answers a next state exactly when `INIT` = 1. -/
theorem execute_eq_next {g : State → State} {s t : State} :
    execute g s = .next t ↔ s.init = true ∧ t = g (s.setLine (s.line + 1#16)) := by
  unfold execute
  split
  · simp [*, eq_comm]
  · simp [*]

theorem execute_ne_fault (g : State → State) (s : State) (r : Fault) : execute g s ≠ .fault r :=
  nomatch r

theorem execute_of_init {g : State → State} {s : State} (h : s.init = true) :
    execute g s = .next (g (s.setLine (s.line + 1#16))) := execute_eq_next.mpr ⟨h, rfl⟩

end Sys2Proof.Machine
end

