-- ==== Sys2Proof/Laws/Exec.lean ====
section
/-! SUPPORT. Every meaning is an execute step around an effect, so that what `exec` can do is said
once for all instructions, and what `step` can do is said once for all states. -/

namespace Sys2Proof.Machine

/-- The effect of an instruction on a state whose line is already the next one. -/
def effectOf : Instr → State → State
  | .nop _ _ => fun s => s
  | .load f opr => fun s => s.setAcc (loadValue f opr s)
  | .loadGroup f opr => groupOpen (irWord 1#8 f) opr
  | .stor f opr => fun s => store opr s.acc f.fn s
  | .storGroup f opr => groupOpen (irWord 2#8 f) opr
  | .set f opr => fun s => if accCond s f.fn then store opr 1#16 false s else s
  | .rst f opr => fun s => if accCond s f.fn then store opr 0#16 false s else s
  | .and f opr => binaryOp .and f opr
  | .or f opr => binaryOp .or f opr
  | .xor f opr => binaryOp .xor f opr
  | .add f opr => binaryOp .add f opr
  | .sub f opr => binaryOp .sub f opr
  | .mul f opr => binaryOp .mul f opr
  | .div f opr => binaryOp .div f opr
  | .gt f opr => binaryOp .gt f opr
  | .ge f opr => binaryOp .ge f opr
  | .eq f opr => binaryOp .eq f opr
  | .ne f opr => binaryOp .ne f opr
  | .le f opr => binaryOp .le f opr
  | .lt f opr => binaryOp .lt f opr
  | .jump f opr => fun s => if gate s f then s.setLine opr else s
  | .call f opr => fun s => if gate s f then callLine opr s else s
  | .ret f _ => fun s => if gate s f then returnLine s else s
  | .close _ _ => closeGroup

theorem exec_eq_execute (i : Instr) (s : State) : exec i s = execute (effectOf i) s := by
  cases i <;> rfl

/-- `exec` answers a next state exactly when `INIT` = 1, and then it is the effect's. -/
theorem exec_eq_next {i : Instr} {s t : State} :
    exec i s = .next t ↔ s.init = true ∧ t = effectOf i (s.setLine (s.line + 1#16)) := by
  rw [exec_eq_execute, execute_eq_next]

@[simp] theorem effectOf_binary (op : BinOp) (f : FlagBits) (opr : Word) :
    effectOf (op.instr f opr) = binaryOp op f opr := by cases op <;> rfl

/-- What a step of the sequencer can do. -/
theorem sequencerStep_cases (s : State) :
    (s.seq = .idle ∧ sequencerStep s = .next s) ∨
      (s.seq = .run ∧ s.progLen ≤ s.line.toNat ∧ sequencerStep s = .next (s.setSeq .idle)) ∨
      (∃ l, s.seq = .run ∧ s.prog[s.line.toNat]? = some l ∧
        sequencerStep s = exec (decodeLine l.w l.opr) s) := by
  unfold sequencerStep
  split
  · exact .inl ⟨‹_›, rfl⟩
  · rename_i hs
    split
    · exact .inr (.inl ⟨hs, List.getElem?_eq_none_iff.mp ‹_›, rfl⟩)
    · rename_i l hl
      exact .inr (.inr ⟨l, hs, hl, rfl⟩)

/-- What a step of the block and its host can do. -/
theorem step_cases (s : State) :
    ((s.pending = [] ∨ ∃ op rest, s.pending = op :: rest ∧ op.allowed s = false ∧ s.seq = .run) ∧
        step s = sequencerStep s) ∨
      (∃ op rest, s.pending = op :: rest ∧ op.allowed s = true ∧
        step s = hostEffect op (s.setPending rest)) ∨
      (∃ op rest, s.pending = op :: rest ∧ op.allowed s = false ∧ s.seq = .idle ∧
        step s = .refused .notInitialised) := by
  unfold step hostStep
  split
  · exact .inl ⟨.inl ‹_›, rfl⟩
  · rename_i op rest hp
    split
    · exact .inr (.inl ⟨op, rest, hp, ‹_›, rfl⟩)
    · rename_i ha
      have ha' : op.allowed s = false := Bool.eq_false_iff.mpr ha
      split
      · exact .inl ⟨.inr ⟨op, rest, hp, ha', ‹_›⟩, rfl⟩
      · exact .inr (.inr ⟨op, rest, hp, ha', ‹_›, rfl⟩)

/-- The next pending operation, where it is allowed, is what the step does. -/
theorem step_of_allowed {s : State} {op : HostOp} {rest : List HostOp} (hp : s.pending = op :: rest)
    (ha : op.allowed s = true) : step s = hostEffect op (s.setPending rest) := by
  simp [step, hostStep, hp, ha]

/-- Where the host lets the boundary pass, the sequencer takes its step. -/
theorem step_of_pass {s : State} {rest : List HostOp} (hp : s.pending = .pass :: rest) :
    step s = sequencerStep (s.setPending rest) := step_of_allowed hp rfl

/-- What a direct `execute` can do: the step of its instruction at the host's line, with the next line
handed to the host. -/
theorem directExecute_eq_next {w opr line : Word} {s t : State} :
    directExecute w opr line s = .next t ↔
      ∃ u, exec (decodeLine w opr) (s.setLine line) = .next u ∧
        t = (u.setLine s.line).setReply (some u.line) := by
  unfold directExecute
  split <;> rename_i h
  · simp [h, eq_comm]
  · simp [h]
  · simp [h]

/-- A provider's cells are in the canonical form. -/
theorem providerCells_wf (cells : List (Word × Word)) : (providerCells cells).wf = true := by
  unfold providerCells
  have key : ∀ m : Memory, m.wf = true →
      (cells.foldl (fun m c => memSet m c.1 c.2 false) m).wf = true := by
    induction cells with
    | nil => exact fun m hm => hm
    | cons c rest ih => exact fun m hm => ih _ (memSet_wf m _ _ _ hm)
  exact key _ (by decide)

end Sys2Proof.Machine
end

