-- ==== Sys2Proof/Laws/PerInstr.lean ====
section
/-! SUPPORT. The family `OpcodeField`: the word an instruction encodes to carries its opcode, its flag
bits and its operand in their places (spec/30_encoding.md R50, R51). -/

namespace Sys2Proof.Laws

/-- The encoded line of `i` is two words, with the opcode in bits 7:0 and the flag bits above it. -/
def OpcodeField.Statement (i : Instr) : Prop :=
  ∃ w, encode i = [w, i.operand] ∧ opField w = i.opcode ∧ flagBitsOf w = i.flagBits

theorem opcodeField_holds (i : Instr) : OpcodeField.Statement i :=
  ⟨irWord i.opcode i.flagBits, rfl, opField_irWord _ _, flagBitsOf_irWord _ _⟩

theorem OpcodeField.nop (f : FlagBits) (opr : Word) : OpcodeField.Statement (.nop f opr) :=
  opcodeField_holds _
theorem OpcodeField.load (f : FlagBits) (opr : Word) : OpcodeField.Statement (.load f opr) :=
  opcodeField_holds _
theorem OpcodeField.loadGroup (f : FlagBits) (opr : Word) : OpcodeField.Statement (.loadGroup f opr) :=
  opcodeField_holds _
theorem OpcodeField.stor (f : FlagBits) (opr : Word) : OpcodeField.Statement (.stor f opr) :=
  opcodeField_holds _
theorem OpcodeField.storGroup (f : FlagBits) (opr : Word) : OpcodeField.Statement (.storGroup f opr) :=
  opcodeField_holds _
theorem OpcodeField.set (f : FlagBits) (opr : Word) : OpcodeField.Statement (.set f opr) :=
  opcodeField_holds _
theorem OpcodeField.rst (f : FlagBits) (opr : Word) : OpcodeField.Statement (.rst f opr) :=
  opcodeField_holds _
theorem OpcodeField.and (f : FlagBits) (opr : Word) : OpcodeField.Statement (.and f opr) :=
  opcodeField_holds _
theorem OpcodeField.or (f : FlagBits) (opr : Word) : OpcodeField.Statement (.or f opr) :=
  opcodeField_holds _
theorem OpcodeField.xor (f : FlagBits) (opr : Word) : OpcodeField.Statement (.xor f opr) :=
  opcodeField_holds _
theorem OpcodeField.add (f : FlagBits) (opr : Word) : OpcodeField.Statement (.add f opr) :=
  opcodeField_holds _
theorem OpcodeField.sub (f : FlagBits) (opr : Word) : OpcodeField.Statement (.sub f opr) :=
  opcodeField_holds _
theorem OpcodeField.mul (f : FlagBits) (opr : Word) : OpcodeField.Statement (.mul f opr) :=
  opcodeField_holds _
theorem OpcodeField.div (f : FlagBits) (opr : Word) : OpcodeField.Statement (.div f opr) :=
  opcodeField_holds _
theorem OpcodeField.gt (f : FlagBits) (opr : Word) : OpcodeField.Statement (.gt f opr) :=
  opcodeField_holds _
theorem OpcodeField.ge (f : FlagBits) (opr : Word) : OpcodeField.Statement (.ge f opr) :=
  opcodeField_holds _
theorem OpcodeField.eq (f : FlagBits) (opr : Word) : OpcodeField.Statement (.eq f opr) :=
  opcodeField_holds _
theorem OpcodeField.ne (f : FlagBits) (opr : Word) : OpcodeField.Statement (.ne f opr) :=
  opcodeField_holds _
theorem OpcodeField.le (f : FlagBits) (opr : Word) : OpcodeField.Statement (.le f opr) :=
  opcodeField_holds _
theorem OpcodeField.lt (f : FlagBits) (opr : Word) : OpcodeField.Statement (.lt f opr) :=
  opcodeField_holds _
theorem OpcodeField.jump (f : FlagBits) (opr : Word) : OpcodeField.Statement (.jump f opr) :=
  opcodeField_holds _
theorem OpcodeField.call (f : FlagBits) (opr : Word) : OpcodeField.Statement (.call f opr) :=
  opcodeField_holds _
theorem OpcodeField.ret (f : FlagBits) (opr : Word) : OpcodeField.Statement (.ret f opr) :=
  opcodeField_holds _
theorem OpcodeField.close (f : FlagBits) (opr : Word) : OpcodeField.Statement (.close f opr) :=
  opcodeField_holds _

end Sys2Proof.Laws
end

