-- ==== Sys2Proof/Tests/Slice0.lean ====
section
/-! SUPPORT. Tests of the model by the spec's own words and vectors (spec/95_test_vectors.md,
30_encoding.md R67), and for every statement with hypotheses a witness that meets them. -/

namespace Sys2Proof.Tests

open Sys2Proof.Machine

/-! ## Helpers -/

/-- What one instruction leaves in a field, if it completes. -/
def after {α : Type} (field : State → α) (i : Instr) (s : State) : Option α :=
  match exec i s with
  | .next t => some (field t)
  | .fault _ => none
  | .refused _ => none

/-- What one step leaves in a field, if it completes. -/
def stepped {α : Type} (field : State → α) (s : State) : Option α :=
  match step s with
  | .next t => some (field t)
  | .fault _ => none
  | .refused _ => none

/-- Flag bits with the reserved field clear, in the order G, C, N, I. -/
def fl (g c n i : Bool) : FlagBits := ⟨0#4, g, c, n, i⟩

/-- The flag bits of a word with no flags. -/
def plain : FlagBits := fl false false false false

/-- The flag bits of a word with I alone. -/
def imm : FlagBits := fl false false false true

/-- The flag bits of a word with I and N. -/
def immNeg : FlagBits := fl false false true true

/-- The reset state with a given accumulator. -/
def withAcc (a : Word) : State := { State.reset with acc := a }

/-- The reset state with a given accumulator and one cell. -/
def withCell (a : Word) (k : Nat) (v : Word) : State := { withAcc a with mem := ⟨[(k, v)]⟩ }

/-- An initialised block whose evaluation stack is full. -/
def fullStack : State := { withAcc 7#16 with estk := List.replicate 20 ⟨0x0908#16, 1#16⟩ }

/-- An initialised block with one deferred instruction. -/
def deferred (w a acc : Word) : State := { withAcc acc with estk := [⟨w, a⟩] }

/-- An initialised block whose call stack is full. -/
def fullCalls : State := { withAcc 0#16 with cstk := List.replicate 20 3#16, line := 4#16 }

/-- A block that scans the program P1 of 95_test_vectors.md, at a given line. -/
def scanning (line : Word) : State :=
  { State.reset with
    seq := .run, line := line,
    prog := [⟨0x0101#16, 5#16⟩, ⟨0x0108#16, 3#16⟩, ⟨0x0002#16, 40001#16⟩] }

/-- An idle block with one host operation to perform. -/
def asked (op : HostOp) : State := { State.reset with pending := [op] }

/-! ## Well-formedness: each check refuses an ill-formed term -/

theorem test_load_with_wrong_group_flag_is_ill_formed :
    (Instr.load (fl true false false false) 1#16).wellFormed = false := by decide

theorem test_loadGroup_with_wrong_group_flag_is_ill_formed :
    (Instr.loadGroup (fl false false false false) 1#16).wellFormed = false := by decide

theorem test_stor_with_wrong_group_flag_is_ill_formed :
    (Instr.stor (fl true false false false) 1#16).wellFormed = false := by decide

theorem test_storGroup_with_wrong_group_flag_is_ill_formed :
    (Instr.storGroup (fl false false false false) 1#16).wellFormed = false := by decide

/-! ## Decoding: a word of each row, written out from its encoding `rrrr GCNI oooooooo` -/

theorem test_decode_nop : decode [0b0000111100000000#16, 30001#16] =
    .ok (.nop (fl true true true true) 30001#16) := by rfl

theorem test_decode_load : decode [0b0000001000000001#16, 30001#16] =
    .ok (.load (fl false false true false) 30001#16) := by rfl

theorem test_decode_loadGroup : decode [0b0000101000000001#16, 30001#16] =
    .ok (.loadGroup (fl true false true false) 30001#16) := by rfl

theorem test_decode_stor : decode [0b0000001000000010#16, 30001#16] =
    .ok (.stor (fl false false true false) 30001#16) := by rfl

theorem test_decode_storGroup : decode [0b0000100000000010#16, 30001#16] =
    .ok (.storGroup (fl true false false false) 30001#16) := by rfl

theorem test_decode_set : decode [0b0000001000000011#16, 30001#16] =
    .ok (.set (fl false false true false) 30001#16) := by rfl

theorem test_decode_rst : decode [0b0000000000000100#16, 30001#16] =
    .ok (.rst (fl false false false false) 30001#16) := by rfl

theorem test_decode_and : decode [0b0000001000000101#16, 30001#16] =
    .ok (.and (fl false false true false) 30001#16) := by rfl

theorem test_decode_or : decode [0b0000000100000110#16, 30001#16] =
    .ok (.or (fl false false false true) 30001#16) := by rfl

theorem test_decode_xor : decode [0b0000001100000111#16, 30001#16] =
    .ok (.xor (fl false false true true) 30001#16) := by rfl

theorem test_decode_add : decode [0b0000100100001000#16, 30001#16] =
    .ok (.add (fl true false false true) 30001#16) := by rfl

theorem test_decode_sub : decode [0b0000100100001001#16, 30001#16] =
    .ok (.sub (fl true false false true) 30001#16) := by rfl

theorem test_decode_mul : decode [0b0000000100001010#16, 30001#16] =
    .ok (.mul (fl false false false true) 30001#16) := by rfl

theorem test_decode_div : decode [0b0000101100001011#16, 30001#16] =
    .ok (.div (fl true false true true) 30001#16) := by rfl

theorem test_decode_gt : decode [0b0000000000001100#16, 30001#16] =
    .ok (.gt (fl false false false false) 30001#16) := by rfl

theorem test_decode_ge : decode [0b0000000000001101#16, 30001#16] =
    .ok (.ge (fl false false false false) 30001#16) := by rfl

theorem test_decode_eq : decode [0b0000101100001110#16, 30001#16] =
    .ok (.eq (fl true false true true) 30001#16) := by rfl

theorem test_decode_ne : decode [0b0000000100001111#16, 30001#16] =
    .ok (.ne (fl false false false true) 30001#16) := by rfl

theorem test_decode_le : decode [0b0000010000010000#16, 30001#16] =
    .ok (.le (fl false true false false) 30001#16) := by rfl

theorem test_decode_lt : decode [0b0000001100010001#16, 30001#16] =
    .ok (.lt (fl false false true true) 30001#16) := by rfl

theorem test_decode_jump : decode [0b0000011000010010#16, 30001#16] =
    .ok (.jump (fl false true true false) 30001#16) := by rfl

theorem test_decode_call : decode [0b0000010000010011#16, 30001#16] =
    .ok (.call (fl false true false false) 30001#16) := by rfl

theorem test_decode_ret : decode [0b0000011000010100#16, 30001#16] =
    .ok (.ret (fl false true true false) 30001#16) := by rfl

theorem test_decode_close : decode [0b0000100000010101#16, 30001#16] =
    .ok (.close (fl true false false false) 30001#16) := by rfl

theorem test_decode_reserved_bits : decodeLine 0xF001#16 30001#16 =
    .load ⟨15#4, false, false, false, false⟩ 30001#16 := by rfl

theorem test_decode_undefined_opcodes :
    decodeLine 0x0016#16 1#16 = .nop plain 1#16 ∧ decodeLine 0x00FF#16 30001#16 = .nop plain 30001#16 := by
  decide

theorem test_decode_refuses_no_line :
    decode [] = .error .noWord ∧ decode [1#16] = .error .noOperand ∧
      decode [1#16, 2#16, 3#16] = .error .trailingWords := by decide

theorem test_table_word : decodeTableWord 16 0x0801 = some (.loadGroup (fl true false false false) 0#16) ∧
    decodeTableWord 32 0x75310001 = some (.load plain 30001#16) ∧ decodeTableWord 8 0x15 =
      some (.close plain 0#16) := by decide

/-! ## The assembler (30_encoding.md R67, 95_test_vectors.md 2.3) -/

theorem test_parse_source_examples :
    parse "LOAD_I".toList = 0x0101#16 ∧ parse ("LOAD_".toList ++ [openBrace]) = 0x0801#16 ∧
      parse "STOR".toList = 0x0002#16 ∧ parse "ADD_I".toList = 0x0108#16 ∧
      parse "JUMP_C".toList = 0x0412#16 ∧ parse [closeBrace] = 0x0015#16 := by decide

theorem test_parse_flags :
    parse ("ADD_I".toList ++ [openBrace]) = 0x0908#16 ∧ parse "JUMP_CN".toList = 0x0612#16 ∧
      parse "LOAD_I_N".toList = 0x0301#16 ∧ parse "LOAD_II".toList = 0x0101#16 ∧
      parse "FOO_I".toList = 0x0100#16 ∧ parse "SETI".toList = 0x0003#16 := by decide

theorem test_parse_mnemonics :
    parse "GE".toList = 0x000D#16 ∧ parse "RET".toList = 0x0014#16 ∧ parse "LD".toList = 0#16 ∧
      parse "load".toList = 0#16 ∧ parse " LOAD".toList = 0#16 ∧ parse [] = 0#16 := by decide

/-- Program P1 of 95_test_vectors.md. -/
theorem test_assemble_p1 :
    assemble [("LOAD_I".toList, 5#16), ("ADD_I".toList, 3#16), ("STOR".toList, 40001#16)] =
      (scanning 0#16).prog := by decide

/-! ## The address decoder and the access primitives (95_test_vectors.md 2.1, 2.2) -/

theorem test_address_decoder :
    decodeAddr 5#16 = some (.bitBankA, 4) ∧ decodeAddr 10026#16 = some (.bitBankB, 25) ∧
      decodeAddr 30001#16 = some (.wordBankA, 0) ∧ decodeAddr 40001#16 = some (.wordBankB, 0) ∧
      decodeAddr 9999#16 = none ∧ decodeAddr 65535#16 = none := by decide

theorem test_inverted_word_write :
    (memSet ⟨[]⟩ 30005#16 0x1234#16 true).cells = [(30005, 0xEDCB#16)] ∧
      memGet ⟨[(30005, 0xEDCB#16)]⟩ 30005#16 true = 0x1234#16 := by decide

theorem test_bit_write_collapses :
    (memSet ⟨[]⟩ 10001#16 7#16 false).cells = [(10001, 1#16)] ∧
      (memSet ⟨[(10001, 1#16)]⟩ 10001#16 5#16 true).cells = [] ∧
      memGet ⟨[]⟩ 1#16 true = 1#16 ∧ memGet ⟨[]⟩ 20001#16 true = 0#16 := by decide

/-! ## One step of each instruction (95_test_vectors.md 2.4 to 2.8) -/

theorem test_nop : after (fun t => (t.line, t.acc)) (.nop plain 123#16)
    { withAcc 7#16 with line := 4#16 } = some (5#16, 7#16) := by decide

theorem test_nop_wraps : after (·.line) (.nop plain 0#16)
    { withAcc 7#16 with line := 65535#16 } = some 0#16 := by decide

theorem test_set : after (·.mem.cells) (.set plain 10001#16) (withAcc 2#16) =
    some [(10001, 1#16)] := by decide

theorem test_set_word : after (·.mem.cells) (.set plain 30003#16) (withCell 1#16 30003 500#16) =
    some [(30003, 1#16)] := by decide

theorem test_rst : after (·.mem.cells) (.rst plain 10002#16) (withCell 1#16 10002 1#16) = some [] := by
  decide

theorem test_rst_n_keeps : after (·.mem.cells) (.rst (fl false false true false) 10002#16)
    (withCell 1#16 10002 1#16) = some [(10002, 1#16)] := by decide

theorem test_load_n : after (·.acc) (.load (fl false false true false) 30001#16)
    (withCell 0#16 30001 1234#16) = some 64301#16 := by decide

theorem test_load_in : after (·.acc) (.load immNeg 5#16) (withAcc 0#16) = some 5#16 := by decide

theorem test_load_group : after (fun t => (t.estk, t.acc)) (.loadGroup (fl true false false false) 30000#16)
    (withAcc 9#16) = some ([⟨0x0801#16, 9#16⟩], 30000#16) := by decide

theorem test_load_group_overflow : after (fun t => (t.esp, t.acc, t.edisc))
    (.loadGroup (fl true false false false) 30000#16) fullStack = some (20, 7#16, 1#16) := by decide

theorem test_stor_n : after (·.mem.cells) (.stor (fl false false true false) 40001#16) (withAcc 8#16) =
    some [(40001, 65527#16)] := by decide

theorem test_stor_bit : after (·.mem.cells) (.stor plain 3#16) (withAcc 2#16) = some [(3, 1#16)] := by
  decide

theorem test_stor_group : after (fun t => (t.estk, t.acc)) (.storGroup (fl true false false false) 40000#16)
    (withAcc 99#16) = some ([⟨0x0802#16, 99#16⟩], 40000#16) := by decide

theorem test_add_group : after (fun t => (t.estk, t.acc)) (.add (fl true false false false) 30001#16)
    (withCell 5#16 30001 10#16) = some ([⟨0x0808#16, 5#16⟩], 10#16) := by decide

theorem test_div_invalid_address : after (·.acc) (.div plain 20001#16) (withAcc 9#16) = some 0#16 := by
  decide

theorem test_and : after (·.acc) (.and imm 60#16) (withAcc 240#16) = some 48#16 := by
  decide

theorem test_and_2 : after (·.acc) (.and immNeg 0#16) (withAcc 65535#16) = some 65535#16 := by
  decide

theorem test_or : after (·.acc) (.or imm 256#16) (withAcc 1#16) = some 257#16 := by
  decide

theorem test_or_2 : after (·.acc) (.or immNeg 0#16) (withAcc 0#16) = some 65535#16 := by
  decide

theorem test_xor : after (·.acc) (.xor imm 3855#16) (withAcc 255#16) = some 4080#16 := by
  decide

theorem test_xor_2 : after (·.acc) (.xor immNeg 0#16) (withAcc 4660#16) = some 60875#16 := by
  decide

theorem test_add : after (·.acc) (.add imm 1#16) (withAcc 65535#16) = some 0#16 := by
  decide

theorem test_sub : after (·.acc) (.sub imm 5#16) (withAcc 3#16) = some 65534#16 := by
  decide

theorem test_sub_2 : after (·.acc) (.sub immNeg 0#16) (withAcc 7#16) = some 8#16 := by
  decide

theorem test_mul : after (·.acc) (.mul imm 300#16) (withAcc 300#16) = some 24464#16 := by
  decide

theorem test_mul_2 : after (·.acc) (.mul imm 65535#16) (withAcc 65535#16) = some 1#16 := by
  decide

theorem test_div : after (·.acc) (.div immNeg 65535#16) (withAcc 9#16) = some 0#16 := by
  decide

theorem test_gt : after (·.acc) (.gt imm 0#16) (withAcc 65535#16) = some 1#16 := by
  decide

theorem test_gt_2 : after (·.acc) (.gt immNeg 0#16) (withAcc 5#16) = some 0#16 := by
  decide

theorem test_ge : after (·.acc) (.ge imm 4#16) (withAcc 4#16) = some 1#16 := by
  decide

theorem test_ge_2 : after (·.acc) (.ge imm 4#16) (withAcc 3#16) = some 0#16 := by
  decide

theorem test_eq : after (·.acc) (.eq immNeg 1#16) (withAcc 65534#16) = some 1#16 := by
  decide

theorem test_eq_2 : after (·.acc) (.eq immNeg 1#16) (withAcc 1#16) = some 0#16 := by
  decide

theorem test_ne : after (·.acc) (.ne immNeg 65535#16) (withAcc 0#16) = some 0#16 := by
  decide

theorem test_ne_2 : after (·.acc) (.ne imm 41#16) (withAcc 42#16) = some 1#16 := by
  decide

theorem test_le : after (·.acc) (.le imm 1#16) (withAcc 65535#16) = some 0#16 := by
  decide

theorem test_le_2 : after (·.acc) (.le imm 5#16) (withAcc 5#16) = some 1#16 := by
  decide

theorem test_lt : after (·.acc) (.lt immNeg 0#16) (withAcc 65534#16) = some 1#16 := by
  decide

theorem test_lt_2 : after (·.acc) (.lt imm 3#16) (withAcc 3#16) = some 0#16 := by
  decide

theorem test_jump_cn : after (·.line) (.jump (fl false true true false) 9#16)
    { withAcc 0#16 with line := 2#16 } = some 9#16 := by decide

theorem test_jump_c_falls_through : after (·.line) (.jump (fl false true false false) 9#16)
    { withAcc 0#16 with line := 2#16 } = some 3#16 := by decide

theorem test_call : after (fun t => (t.cstk, t.line)) (.call plain 8#16)
    { withAcc 0#16 with line := 4#16 } = some ([5#16], 8#16) := by decide

theorem test_call_overflow : after (fun t => (t.csp, t.line)) (.call plain 8#16) fullCalls =
    some (20, 5#16) := by decide

theorem test_ret_cn : after (fun t => (t.cstk, t.line)) (.ret (fl false true true false) 0#16)
    { withAcc 0#16 with cstk := [10#16], line := 3#16 } = some ([], 10#16) := by decide

theorem test_ret_underflow : after (·.line) (.ret plain 0#16) { withAcc 0#16 with line := 3#16 } =
    some 65535#16 := by decide

theorem test_close_stor_n : after (fun t => (t.mem.cells, t.acc, t.esp)) (.close plain 0#16)
    (deferred 0x0A02#16 99#16 40003#16) = some ([(40003, 65436#16)], 99#16, 0) := by decide

theorem test_close_sub : after (·.acc) (.close plain 0#16) (deferred 0x0909#16 10#16 3#16) =
    some 7#16 := by decide

/-! ## The sequencer and the host -/

theorem test_fetch_word_runs : stepped (fun t => (t.acc, t.line)) (State.reset.withFetchWord 32 0x00050101) =
    some (5#16, 1#16) := by decide

theorem test_scan_stores : stepped (fun t => (t.mem.cells, t.line)) { scanning 2#16 with acc := 8#16 } =
    some ([(40001, 8#16)], 3#16) := by decide

theorem test_scan_ends : stepped (·.seq) (scanning 3#16) = some .idle := by decide

theorem test_direct_execute : stepped (fun t => (t.reply, t.line, t.cstk))
    (asked (.execute 0x0013#16 0#16 65535#16)) = some (some 0#16, 0#16, [0#16]) := by decide

/-! ## Witnesses: the hypotheses of each statement can be met -/

theorem witness_DecodeOfEncode : (Instr.storGroup (fl true true true true) 65535#16).wellFormed = true := by
  decide

theorem witness_EncodeOfDecode : (opField 0xFF15#16).toNat ≤ 21 ∧ (opField 0x0000#16).toNat ≤ 21 := by decide

theorem witness_UndefinedOpcodesExecuteAsNop : State.reset.init = true ∧
    22 ≤ (0x0016#16 : Word).toNat % 256 ∧ 22 ≤ (0xFFFF#16 : Word).toNat % 256 := by decide

theorem witness_ReservedBitsHaveNoEffect :
    ∃ t, exec (decodeLine 0xF908#16 2#16) State.reset = .next t ∧ t.estk = [⟨0xF908#16, 0#16⟩] :=
  ⟨_, rfl, rfl⟩

theorem witness_UnmarkedFlagsHaveNoEffect :
    ∃ t, exec (.jump (fl true false true true) 9#16) (deferred 0xFD08#16 1#16 0#16) = .next t :=
  ⟨_, rfl⟩

theorem witness_ParseMatchesMnemonicPrefix :
    "LOAD".toList <+: "LOADX".toList ∧ [Char.ofNat 125] <+: [Char.ofNat 125] ∧
      firstMatch mnemonics "LD".toList = 0#16 := by decide

theorem witness_ParseScansFlagsAfterFirstUnderscore :
    '_' ∉ "ADD".toList ∧ '_' ∉ ([] : List Char) := by decide

theorem witness_AddressDecoderFollowsTheMap :
    (1 ≤ (1#16 : Word).toNat ∧ (26#16 : Word).toNat ≤ 26) ∧
    (10001 ≤ (10001#16 : Word).toNat ∧ (10026#16 : Word).toNat ≤ 10026) ∧
    (30001 ≤ (30001#16 : Word).toNat ∧ (30026#16 : Word).toNat ≤ 30026) ∧
    (40001 ≤ (40001#16 : Word).toNat ∧ (40026#16 : Word).toNat ≤ 40026) ∧
    (10000#16 : Word).toNat % 10000 = 0 ∧ 26 < (27#16 : Word).toNat % 10000 ∧
    (20001#16 : Word).toNat / 10000 = 2 ∧ 4 < (50001#16 : Word).toNat / 10000 := by decide

/-- An invalid address, a bit cell and a word cell: for the statements about `MemGet` and `MemSet`. -/
theorem witness_MemGetReadsOneCell :
    decodeAddr 27#16 = none ∧ decodeAddr 26#16 = some (.bitBankA, 25) ∧ Region.bitBankA.isBit = true ∧
      decodeAddr 40026#16 = some (.wordBankB, 25) ∧ Region.wordBankB.isBit = false := by decide

theorem witness_MemSetWritesOneCell :
    decodeAddr 0#16 = none ∧ decodeAddr 10001#16 = some (.bitBankB, 0) ∧
      decodeAddr 30026#16 = some (.wordBankA, 25) ∧ (0 : Nat) ≠ (10001#16 : Word).toNat := by decide

theorem witness_MemGetAfterMemSet :
    decodeAddr 60001#16 = none ∧ decodeAddr 1#16 = some (.bitBankA, 0) ∧
      Region.bitBankA.isBit = true ∧ decodeAddr 30001#16 = some (.wordBankA, 0) ∧
      Region.wordBankA.isBit = false := by decide

theorem witness_CanonicalMemoriesWithEqualCellsAreEqual :
    (⟨[(1, 1#16), (40026, 500#16)]⟩ : Memory).wf = true ∧
      ∀ k, (⟨[(1, 1#16), (40026, 500#16)]⟩ : Memory).read k =
        (memSet (memSet ⟨[]⟩ 40026#16 500#16 false) 1#16 3#16 false).read k :=
  ⟨by decide, fun _ => rfl⟩

theorem witness_NopChangesOnlyTheLine : State.reset.init = true := by decide

theorem witness_SetStoresOneWhenTestHolds :
    State.reset.init = true ∧ ((State.reset.acc != 0#16) ^^ true) = true ∧
      ((State.reset.acc != 0#16) ^^ false) = false := by decide

theorem witness_RstStoresZeroWhenTestHolds :
    (withAcc 1#16).init = true ∧ (((withAcc 1#16).acc != 0#16) ^^ false) = true ∧
      (((withAcc 1#16).acc != 0#16) ^^ true) = false := by decide

theorem witness_LoadReadsLiteralOrCell : (withCell 0#16 1 1#16).init = true := by decide

theorem witness_StorStoresTheAccumulator : (withAcc 8#16).init = true ∧ decodeAddr 27#16 = none ∧
    decodeAddr 40001#16 = some (.wordBankB, 0) := by decide

theorem witness_LoadAndStorGroupsOpen :
    (fullStack.init = true ∧ 20 ≤ fullStack.esp) ∧
      (let s := fullStack.setEstk fullStack.estk.tail; s.init = true ∧ s.esp < 20 ∧ 18 < s.esp) := by
  decide

theorem witness_BinaryOperatorsFetchThenOpenOrApply :
    (fullStack.init = true ∧ 20 ≤ fullStack.esp ∧ (fl true false false true).fg = true) ∧
      (let s := fullStack.setEstk fullStack.estk.tail; s.init = true ∧ s.esp < 20) ∧
      imm.fg = false ∧ (5#16 : Word) = (if imm.fi then 5#16 else memGet fullStack.mem 5#16 false) := by
  decide

theorem witness_GroupOpenSavesTheFetchedWord :
    State.reset.init = true ∧ State.reset.esp < 20 ∧
      ((0xF801#16 : Word).getLsbD 11 = true ∧ (0xF801#16 : Word).toNat % 256 = 1) ∧
      ((0x0802#16 : Word).getLsbD 11 = true ∧ (0x0802#16 : Word).toNat % 256 = 2) ∧
      ((0x0805#16 : Word).getLsbD 11 = true ∧ 5 ≤ (0x0805#16 : Word).toNat % 256) ∧
      ((0x0811#16 : Word).getLsbD 11 = true ∧ (0x0811#16 : Word).toNat % 256 ≤ 17) := by decide

theorem witness_CloseWithoutAnOpenGroup :
    (let s := fullStack.setEdisc 1#16; s.init = true ∧ 0 < s.edisc.toNat) ∧
      (let s := withAcc 7#16; s.init = true ∧ s.edisc.toNat = 0 ∧ s.estk = []) := by decide

theorem witness_CloseCompletesDeferredLoad :
    let s := deferred 0x0A01#16 9#16 30001#16
    s.init = true ∧ s.edisc = 0#16 ∧ s.estk = [⟨0x0A01#16, 9#16⟩] ∧
      (0x0A01#16 : Word).toNat % 256 = 1 := by decide

theorem witness_CloseCompletesDeferredStor :
    let s := deferred 0x0802#16 99#16 50001#16
    s.init = true ∧ s.edisc = 0#16 ∧ s.estk = [⟨0x0802#16, 99#16⟩] ∧
      (0x0802#16 : Word).toNat % 256 = 2 := by decide

theorem witness_CloseCompletesDeferredOperator :
    let s := deferred 0x0B0B#16 100#16 65535#16
    s.init = true ∧ s.edisc = 0#16 ∧ s.estk = [⟨0x0B0B#16, 100#16⟩] ∧
      (0x0B0B#16 : Word).toNat % 256 = BinOp.div.code.toNat := by decide

theorem witness_CloseDiscardsAnyOtherEntry :
    let s := deferred 0x0812#16 1#16 2#16
    s.init = true ∧ s.edisc = 0#16 ∧ s.estk = [⟨0x0812#16, 1#16⟩] ∧
      17 < (0x0812#16 : Word).toNat % 256 ∧ (0x0804#16 : Word).toNat % 256 < 5 := by decide

theorem witness_GroupedLoadLoadsLikeDirectLoad :
    ∃ t, exec (.loadGroup (fl true false true false) 30000#16) (withAcc 9#16) = .next t ∧
      (withAcc 9#16).esp < 20 ∧ (withAcc 9#16).edisc = 0#16 ∧ (t.setAcc 30001#16).init = true ∧
      (t.setAcc 30001#16).estk = t.estk ∧ (t.setAcc 30001#16).edisc = t.edisc ∧
      (fl false false true false).fi = false :=
  ⟨_, rfl, by decide, rfl, rfl, rfl, rfl, rfl⟩

/-- The count may also be saturated: `EDISC` = 65535 stays there at an open and goes to 65534 at a
close (spec/40_engine.md R76, 45_close_group.md R114). -/
theorem test_saturated_discards :
    ∃ t u, exec (.sub (fl true false false true) 2#16) (fullStack.setEdisc 65535#16) = .next t ∧
      exec (.close (fl false false false false) 0#16) t = .next u ∧
      t.edisc = 65535#16 ∧ u.edisc = 65534#16 :=
  ⟨_, _, rfl, rfl, by decide, by decide⟩

theorem witness_RefusedGroupIsDiscardedByItsClose :
    ∃ t, exec (.sub (fl true false false true) 2#16) fullStack = .next t ∧ fullStack.esp = 20 ∧
      (Instr.sub (fl true false false true) 2#16).wellFormed = true ∧
      (Instr.sub (fl true false false true) 2#16).flagBits.fg = true ∧
      5 ≤ (Instr.sub (fl true false false true) 2#16).opcode.toNat ∧
      (Instr.sub (fl true false false true) 2#16).opcode.toNat ≤ 17 ∧ (t.setAcc 3#16).init = true ∧
      (t.setAcc 3#16).estk = t.estk ∧ (t.setAcc 3#16).edisc = t.edisc :=
  ⟨_, rfl, by decide, rfl, rfl, by decide, by decide, rfl, rfl, rfl⟩

theorem witness_ApplyComputesEachFunction :
    65535 = (65535#16 : Word).toNat ∧ 0 = operandNat 65535#16 true ∧
      65535 = operandNat 65535#16 false := by decide

/-- For the statements that use `EvaluatesTo`. -/
theorem witness_LogicOperatorsAreBitwise : (withAcc 240#16).init = true ∧ immNeg.fg = false := by decide

theorem witness_ArithmeticOperatorsWrap : (withAcc 65535#16).init = true ∧ imm.fg = false := by decide

theorem witness_DivisionRoundsDownAndByZeroIsZero :
    (withAcc 9#16).init = true ∧ immNeg.fg = false ∧
      operandNat (binValue immNeg 65535#16 (withAcc 9#16)) immNeg.fn = 0 := by decide

theorem witness_ComparisonsAreUnsigned : (withCell 3#16 2 1#16).init = true ∧ plain.fg = false := by decide

theorem witness_JumpFollowsItsGate : (withAcc 5#16).init = true := by decide

theorem witness_CallPushesTheNextLine :
    (let s := fullCalls.setCstk fullCalls.cstk.tail
     s.init = true ∧ plain.fc = false ∧ s.csp < 20 ∧ 18 < s.csp) ∧
      (fullCalls.init = true ∧ ((fullCalls.acc != 0#16) ^^ true) = true ∧ 20 ≤ fullCalls.csp) ∧
      ((fl false true false false).fc = true ∧ ((fullCalls.acc != 0#16) ^^ false) = false) := by decide

theorem witness_RetPopsTheCallStack :
    (fullCalls.init = true ∧ plain.fc = false ∧ fullCalls.cstk = 3#16 :: fullCalls.cstk.tail) ∧
      (State.reset.init = true ∧ State.reset.cstk = []) ∧
      ((fl false true false false).fc = true ∧ ((State.reset.acc != 0#16) ^^ false) = false) := by decide

theorem witness_RetResumesAfterCall :
    ∃ t, exec (.call plain 8#16) (withAcc 1#16) = .next t ∧ plain.fc = false ∧
      (withAcc 1#16).csp < 20 ∧ (t.setAcc 3#16).init = true ∧ (t.setAcc 3#16).cstk = t.cstk :=
  ⟨_, rfl, rfl, by decide, rfl, rfl⟩

theorem witness_OnlyTransfersReplaceTheNextLine :
    (Instr.close plain 0#16).isTransfer = false ∧ ∃ t, exec (.close plain 0#16) fullStack = .next t :=
  ⟨rfl, _, rfl⟩

theorem witness_InstructionsKeepControlState :
    ∃ t, exec (.ret plain 0#16) (scanning 1#16) = .next t := ⟨_, rfl⟩

theorem witness_TransfersAndGroupsKeepApart :
    (∃ t, exec (.jump plain 0#16) fullStack = .next t ∧ (Instr.jump plain 0#16).usesCallStack = false ∧
      (Instr.jump plain 0#16).isTransfer = true) ∧
      ∃ t, exec (.ret plain 0#16) fullCalls = .next t ∧ (Instr.ret plain 0#16).isTransfer = true :=
  ⟨⟨_, rfl, rfl, rfl⟩, _, rfl, rfl⟩

theorem witness_CellsChangeOnlyAtTheStoreTarget :
    (∃ t, exec (.set plain 10001#16) State.reset = .next t ∧
      storeTarget (.set plain 10001#16) State.reset = none) ∧
    (∃ t, exec (.stor plain 27#16) (withAcc 8#16) = .next t ∧
      storeTarget (.stor plain 27#16) (withAcc 8#16) = some 27#16 ∧ decodeAddr 27#16 = none) ∧
    ∃ t, exec (.close plain 0#16) (deferred 0x0802#16 99#16 40003#16) = .next t ∧
      storeTarget (.close plain 0#16) (deferred 0x0802#16 99#16 40003#16) = some 40003#16 :=
  ⟨⟨_, rfl, rfl⟩, ⟨_, rfl, rfl, rfl⟩, _, rfl, rfl⟩

theorem witness_ExecutionIsRefusedBeforeInit :
    let s (op : HostOp) : State := { asked op with init := false }
    (s .startScan).init = false ∧ (s .startScan).seq = .idle ∧
      (s .startScan).pending = [.startScan] ∧
      (s (.execute 0#16 0#16 0#16)).pending = [.execute 0#16 0#16 0#16] := by decide

theorem witness_NoStepOfAnInitialisedBlockStops :
    (asked (.replaceProgram [⟨0#16, 0#16⟩])).init = true ∧
      ∀ lines, HostOp.replaceProgram lines ∈ (asked (.replaceProgram [⟨0#16, 0#16⟩])).pending →
        lines.length ≤ 65535 :=
  ⟨rfl, by simp [asked]⟩

theorem witness_StepKeepsTheInvariant :
    ({ scanning 1#16 with estk := [⟨0x0908#16, 7#16⟩], mem := ⟨[(1, 1#16), (30001, 9#16)]⟩ } : State).Inv ∧
      ∃ t, step { scanning 1#16 with
        estk := [⟨0x0908#16, 7#16⟩], mem := ⟨[(1, 1#16), (30001, 9#16)]⟩ } = .next t :=
  ⟨⟨by decide, by decide, by decide, by decide, by decide, by decide, by decide⟩, _, rfl⟩

theorem witness_StepRunsTheDecodedLine :
    (scanning 2#16).seq = .run ∧ (scanning 2#16).prog[2]? = some ⟨0x0002#16, 40001#16⟩ ∧
      (scanning 2#16).hostQuiet = true ∧
      ((scanning 2#16).setPending [.startScan]).hostQuiet = true ∧
      ((scanning 2#16).setPending [.pass]).pending = [.pass] := by decide

theorem witness_ScanEndsAtOrBeyondProgramLength :
    ((scanning 3#16).seq = .run ∧ (scanning 3#16).hostQuiet = true ∧
      (scanning 3#16).progLen ≤ (scanning 3#16).line.toNat ∧
      ((scanning 3#16).setPending [.pass]).pending = [.pass]) ∧
    (scanning 65535#16).hostQuiet = true ∧ (scanning 65535#16).progLen ≤ 65535 ∧
      (scanning 65535#16).line = 65535#16 := by decide

theorem witness_StartScanBeginsAtLineZero :
    (asked .startScan).pending = [.startScan] ∧ (asked .startScan).seq = .idle ∧
      (asked .startScan).init = true := by decide

theorem witness_IdleBlockKeepsItsState : 
    (fullStack.seq = .idle ∧ fullStack.pending = []) ∧
      (asked .pass).seq = .idle ∧ (asked .pass).pending = [.pass] := by decide

theorem witness_InitResetsTheRegisters :
    (asked (.init none)).pending = [.init none] ∧ (asked (.init none)).seq = .idle := by decide

theorem witness_InitKeepsTheLine :
    let s := (asked (.init none)).setLine 65535#16
    s.pending = [.init none] ∧ s.seq = .idle ∧ s.line = 65535#16 := by decide

theorem witness_InitBindsADifferentProvider :
    let cells : List (Word × Word) := [(1#16, 5#16), (30001#16, 9#16)]
    (asked (.init (some cells))).pending = [.init (some cells)] ∧
      (asked (.init (some cells))).seq = .idle ∧ (∀ c ∈ cells, c.1 ≠ 40001#16) ∧
      cells = [] ++ (1#16, 5#16) :: [(30001#16, 9#16)] ∧
      (∀ c ∈ [((30001#16 : Word), (9#16 : Word))], c.1 ≠ 1#16) ∧
      decodeAddr 1#16 = some (.bitBankA, 0) ∧ decodeAddr 30001#16 = some (.wordBankA, 0) :=
  ⟨rfl, rfl, by simp, rfl, by simp, by decide, by decide⟩

theorem witness_DirectExecuteRunsOneInstruction :
    let s := asked (.execute 0x0014#16 0#16 3#16)
    s.pending = [.execute 0x0014#16 0#16 3#16] ∧ s.seq = .idle ∧ s.init = true := by decide

theorem witness_HostReadsChangeNothing :
    ((scanning 1#16).setPending [.getAccumulator]).pending = [.getAccumulator] ∧
      ((scanning 1#16).setPending [.parse ['S']]).pending = [.parse ['S']] := by decide

theorem witness_HostWritesCellsOnlyWhereAllowed :
    ((asked (.writeCell 10001#16 1#16)).pending = [.writeCell 10001#16 1#16] ∧
      (asked (.writeCell 10001#16 1#16)).seq = .idle) ∧
    (let s := (scanning 0#16).setPending [.writeCell 30001#16 9#16]
     s.pending = [.writeCell 30001#16 9#16] ∧ s.seq = .run ∧
      s.prog[0]? = some ⟨0x0101#16, 5#16⟩) := by decide

theorem witness_ProgramChangesOnlyWhileIdle :
    (asked (.replaceProgram [⟨0#16, 0#16⟩])).seq = .idle ∧
      (let long := List.replicate 65536 (⟨0#16, 0#16⟩ : ProgLine)
       (asked (.replaceProgram long)).pending = [.replaceProgram long] ∧
         (asked (.replaceProgram long)).seq = .idle ∧ 65535 < long.length) ∧
      (scanning 0#16).seq = .run ∧ ∃ t, step (scanning 0#16) = .next t :=
  ⟨rfl, ⟨rfl, rfl, by rw [List.length_replicate]; decide⟩, rfl, _, rfl⟩

end Sys2Proof.Tests
end

/-! # The invariant of the stacks, `EDISC`, the cells, the program and `INIT`

Each update of the state, each shared operation, each instruction and each host operation keeps
`State.Inv`; `step` is made of these. -/

namespace Sys2Proof.Machine

/-! ## What the invariant says of a pushed entry, and what the decoder guarantees -/

/-- The decoder picks the grouped form of LOAD and STOR exactly when the BeginGroup flag is set
(40_engine.md R71). -/
theorem decodeLine_wellFormed (w opr : Word) : (decodeLine w opr).wellFormed = true := by
  unfold decodeLine
  split
  case h_1 | h_2 =>
    dsimp only
    split <;> simp_all [Instr.wellFormed]
  all_goals rfl

@[simp] theorem EvalEntry.deferred_load (f : FlagBits) (a : Word) :
    EvalEntry.deferred ⟨irWord 1#8 f, a⟩ = f.fg := by simp [EvalEntry.deferred]

@[simp] theorem EvalEntry.deferred_stor (f : FlagBits) (a : Word) :
    EvalEntry.deferred ⟨irWord 2#8 f, a⟩ = f.fg := by simp [EvalEntry.deferred]

@[simp] theorem EvalEntry.deferred_binary (op : BinOp) (f : FlagBits) (a : Word) :
    EvalEntry.deferred ⟨irWord op.code f, a⟩ = f.fg := by simp [EvalEntry.deferred]

/-- Whether R83 allows an operation does not depend on what else the host has planned. -/
@[simp] theorem HostOp.allowed_setPending (op : HostOp) (s : State) (ops : List HostOp) :
    op.allowed (s.setPending ops) = op.allowed s := by cases op <;> rfl

namespace State.Inv

variable {s : State}

/-! ## The updates of the state -/

theorem setAcc (h : s.Inv) (v : Word) : (s.setAcc v).Inv := { h with }

theorem setLine (h : s.Inv) (l : Word) : (s.setLine l).Inv := { h with }

theorem setReply (h : s.Inv) (r : Option Word) : (s.setReply r).Inv := { h with }

theorem setPending (h : s.Inv) (ops : List HostOp) : (s.setPending ops).Inv := { h with }

theorem setProg (h : s.Inv) {p : List ProgLine} (hp : p.length ≤ Config.maxProgLen) :
    (s.setProg p).Inv := { h with progLen := hp }

theorem setCstk (h : s.Inv) {ls : List Word} (hl : ls.length ≤ Config.callDepth) :
    (s.setCstk ls).Inv := { h with callDepth := hl }

theorem setSeq (h : s.Inv) {q : SeqState} (hq : q = .run → s.init = true) : (s.setSeq q).Inv :=
  { h with running := hq }

/-- `EDISC` may take any value over a full stack, and 0 over every stack (10_state.md R23). -/
theorem setEdisc (h : s.Inv) {v : Word} (hv : v ≠ 0#16 → s.esp = Config.evalDepth) :
    (s.setEdisc v).Inv := { h with discards := hv }

theorem store (h : s.Inv) (addr v : Word) (inv : Bool) : (store addr v inv s).Inv :=
  { h with memWf := memSet_wf s.mem addr v inv h.memWf }

/-! ## Groups -/

/-- With room on the stack `EDISC` is 0, so that a push keeps R23. -/
theorem edisc_eq_zero (h : s.Inv) (hroom : s.esp < Config.evalDepth) : s.edisc = 0#16 := by
  by_contra hne
  exact absurd (h.discards hne) (Nat.ne_of_lt hroom)

theorem push (h : s.Inv) {e : EvalEntry} (he : e.deferred = true)
    (hroom : s.esp < Config.evalDepth) : (s.setEstk (e :: s.estk)).Inv :=
  { h with
    evalDepth := hroom
    evalEntries := List.forall_mem_cons.mpr ⟨he, h.evalEntries⟩
    discards := fun hne => absurd (h.edisc_eq_zero hroom) hne }

theorem pop (h : s.Inv) {e : EvalEntry} {es : List EvalEntry} (hs : s.estk = e :: es)
    (hd : s.edisc = 0#16) : (s.setEstk es).Inv :=
  { h with
    evalDepth := by
      have hle := h.evalDepth
      simp only [State.esp, hs, List.length_cons] at hle
      exact Nat.le_of_succ_le hle
    evalEntries := fun d hmem => h.evalEntries d (hs ▸ List.mem_cons_of_mem e hmem)
    discards := fun hne => absurd hd hne }

/-- A group open pushes a deferrable word, or counts over a full stack (40_engine.md R76). -/
theorem groupOpen (h : s.Inv) {w : Word} (v : Word)
    (hw : EvalEntry.deferred ⟨w, s.acc⟩ = true) : (groupOpen w v s).Inv := by
  rcases groupOpen_cases w v s with ⟨hroom, heq⟩ | ⟨hfull, heq⟩ <;> rw [heq]
  · exact (h.push hw hroom).setAcc v
  · exact h.setEdisc fun _ => le_antisymm h.evalDepth hfull

theorem binaryOp (h : s.Inv) (op : BinOp) (f : FlagBits) (opr : Word) :
    (binaryOp op f opr s).Inv := by
  rcases binaryOp_cases op f opr s with ⟨hfg, heq⟩ | ⟨-, heq⟩ <;> rw [heq]
  · exact h.groupOpen _ (by rw [EvalEntry.deferred_binary, hfg])
  · exact h.setAcc _

theorem completeDeferred (h : s.Inv) (e : EvalEntry) : (completeDeferred e s).Inv := by
  rcases completeDeferred_cases e s with ⟨-, heq⟩ | ⟨-, heq⟩ | ⟨_, -, heq⟩ | ⟨-, -, -, heq⟩ <;> rw [heq]
  · exact h.setAcc _
  · exact (h.store _ _ _).setAcc _
  · exact h.setAcc _
  · exact h

/-- A close pops only when no refused open is counted (45_close_group.md R114). -/
theorem closeGroup (h : s.Inv) : (closeGroup s).Inv := by
  rcases closeGroup_cases s with ⟨hne, heq⟩ | ⟨-, -, heq⟩ | ⟨hd, e, es, hs, heq⟩ <;> rw [heq]
  · exact h.setEdisc fun _ => h.discards hne
  · exact h
  · exact (h.pop hs hd).completeDeferred e

/-! ## Control transfer -/

theorem callLine (h : s.Inv) (opr : Word) : (callLine opr s).Inv := by
  rcases callLine_cases opr s with ⟨hroom, heq⟩ | ⟨-, heq⟩ <;> rw [heq]
  · exact (h.setCstk (ls := s.line :: s.cstk) hroom).setLine opr
  · exact h

theorem returnLine (h : s.Inv) : (returnLine s).Inv := by
  rcases returnLine_cases s with ⟨-, heq⟩ | ⟨l, ls, hs, heq⟩ <;> rw [heq]
  · exact h.setLine _
  · have hle := h.callDepth
    simp only [State.csp, hs, List.length_cons] at hle
    exact (h.setCstk (Nat.le_of_succ_le hle)).setLine l

/-! ## Instructions -/

/-- An effect under a test keeps the invariant if the effect does. -/
theorem ite {t : State} (b : Bool) (ht : t.Inv) (h : s.Inv) : (if b then t else s).Inv := by
  cases b
  · exact h
  · exact ht

/-- The effect of a well-formed instruction keeps the invariant: the grouped forms of LOAD and STOR
carry the BeginGroup flag, which R21 asks of what they push. -/
theorem effectOf (h : s.Inv) {i : Instr} (hi : i.wellFormed = true) : (effectOf i s).Inv := by
  cases i with
  | nop f opr => exact h
  | load f opr => exact h.setAcc _
  | loadGroup f opr => exact h.groupOpen _ (by rw [EvalEntry.deferred_load]; exact hi)
  | stor f opr => exact h.store _ _ _
  | storGroup f opr => exact h.groupOpen _ (by rw [EvalEntry.deferred_stor]; exact hi)
  | set f opr => exact .ite _ (h.store _ _ _) h
  | rst f opr => exact .ite _ (h.store _ _ _) h
  | jump f opr => exact .ite _ (h.setLine _) h
  | call f opr => exact .ite _ (h.callLine _) h
  | ret f opr => exact .ite _ h.returnLine h
  | close f opr => exact h.closeGroup
  | and f opr | or f opr | xor f opr | add f opr | sub f opr | mul f opr | div f opr
  | gt f opr | ge f opr | eq f opr | ne f opr | le f opr | lt f opr => exact h.binaryOp _ f opr

theorem exec (h : s.Inv) {i : Instr} {t : State} (hi : i.wellFormed = true)
    (hx : exec i s = .next t) : t.Inv := by
  obtain ⟨-, rfl⟩ := exec_eq_next.mp hx
  exact (h.setLine _).effectOf hi

/-! ## The sequencer and the host -/

theorem sequencerStep (h : s.Inv) {t : State} (hx : sequencerStep s = .next t) : t.Inv := by
  rcases sequencerStep_cases s with ⟨-, heq⟩ | ⟨-, -, heq⟩ | ⟨l, -, -, heq⟩ <;> rw [heq] at hx
  · cases hx
    exact h
  · cases hx
    exact h.setSeq nofun
  · exact h.exec (decodeLine_wellFormed _ _) hx

theorem directExecute (h : s.Inv) {w opr line : Word} {t : State}
    (hx : directExecute w opr line s = .next t) : t.Inv := by
  obtain ⟨u, hu, rfl⟩ := directExecute_eq_next.mp hx
  exact (((h.setLine line).exec (decodeLine_wellFormed _ _) hu).setLine _).setReply _

/-- `init` empties both stacks and keeps the program; a new provider comes in canonical form
(70_reset_and_hazards.md R131, R133). -/
theorem initialise (h : s.Inv) (provider : Option (List (Word × Word))) :
    (initialise provider s).Inv where
  evalDepth := Nat.zero_le _
  evalEntries := nofun
  callDepth := Nat.zero_le _
  discards := fun hne => absurd rfl hne
  memWf := by
    cases provider with
    | none => exact h.memWf
    | some cells => exact providerCells_wf cells
  progLen := h.progLen
  running := nofun

/-- A host operation keeps the invariant where R83 allows it: `start_scan` needs `INIT` = 1. -/
theorem hostEffect (h : s.Inv) {op : HostOp} {t : State} (ha : op.allowed s = true)
    (hx : hostEffect op s = .next t) : t.Inv := by
  cases op with
  | init provider =>
    cases hx
    exact h.initialise provider
  | startScan =>
    cases hx
    obtain ⟨-, hinit⟩ := Bool.and_eq_true_iff.mp ha
    exact ((h.setLine 0#16).setSeq fun _ => hinit).setReply none
  | execute w opr line => exact h.directExecute hx
  | getAccumulator =>
    cases hx
    exact h.setReply _
  | parse token =>
    cases hx
    exact h.setReply _
  | writeCell addr v =>
    cases hx
    exact (h.store addr v false).setReply _
  | replaceProgram lines =>
    simp only [Machine.hostEffect] at hx
    split at hx
    · cases hx
      exact (h.setProg ‹_›).setReply _
    · cases hx
  | pass => exact h.sequencerStep hx

theorem step (h : s.Inv) {t : State} (hx : step s = .next t) : t.Inv := by
  rcases step_cases s with ⟨-, heq⟩ | ⟨op, rest, -, ha, heq⟩ | ⟨-, -, -, -, -, heq⟩ <;> rw [heq] at hx
  · exact h.sequencerStep hx
  · exact (h.setPending rest).hostEffect (by rw [HostOp.allowed_setPending, ha]) hx
  · cases hx

end State.Inv

/-- Settles O45, by `State.Inv.step`: the three things a step can do (`step_cases`) keep the
invariant. -/
theorem stepKeepsTheInvariant : Obligations.StepKeepsTheInvariant :=
  fun _ _ h hx => h.step hx

end Sys2Proof.Machine

/-! # The address decoder and the access primitives, by the five-digit addresses

The decoder inverts `cellKey` on the cells that exist; what is read and written at a decoded address
then follows from the rules for one cell. -/

namespace Sys2Proof.Machine

/-! ## The address decoder -/

theorem decodeAddr_of_toNat_eq {a : Word} {r : Region} {i : Nat} (hi : i < Config.slots)
    (ha : a.toNat = cellKey r i) : decodeAddr a = some (r, i) := decodeNat_eq_some.mpr ⟨hi, ha⟩

/-- The INVALID addresses (20_memory.md R33): no such slot, or no such region. -/
theorem decodeAddr_eq_none {a : Word} (h : a.toNat % 10000 = 0 ∨ Config.slots < a.toNat % 10000 ∨
    a.toNat / 10000 = 2 ∨ 4 < a.toNat / 10000) : decodeAddr a = none := by
  refine Option.eq_none_iff_forall_ne_some.mpr fun ⟨r, i⟩ hsome => ?_
  obtain ⟨hi, ha⟩ := decodeAddr_eq_some hsome
  simp only [Config.slots] at h hi
  cases r <;> simp only [cellKey, Region.digit] at ha <;> omega

/-- Settles O10: each range lists the `cellKey`s of one region, and every other address has a slot or
a region digit that no cell has. -/
theorem addressDecoderFollowsTheMap : Obligations.AddressDecoderFollowsTheMap := by
  intro a
  refine ⟨fun h => ?_, fun h => ?_, fun h => ?_, fun h => ?_, decodeAddr_eq_none⟩
  all_goals
    apply decodeAddr_of_toNat_eq <;> simp only [Config.slots, cellKey, Region.digit] <;> omega

/-! ## Reading -/

theorem toNat_zext16 (b : Bool) : (zext16 b).toNat = if b then 1 else 0 := by cases b <;> rfl

/-- The 16-bit complement is `65535 - v` (20_memory.md R39, R41). -/
theorem toNat_complement_if (v : Word) (inv : Bool) :
    (if inv then ~~~v else v).toNat = operandNat v inv := by
  cases inv
  · rfl
  · exact BitVec.toNat_not

/-- Settles O11, by what `MemGet` returns for each kind of address. -/
theorem memGetReadsOneCell : Obligations.MemGetReadsOneCell := by
  refine fun m a inv => ⟨fun h => ?invalid, fun r i h => ⟨fun hr => ?bit, fun hr => ?word⟩⟩
  case invalid => rw [memGet_invalid m inv h]; rfl
  case bit =>
    rw [memGet_bit m inv h hr, toNat_zext16]
    cases m.bit r i <;> cases inv <;> rfl
  case word => rw [memGet_word m inv h hr, toNat_complement_if]

/-! ## Writing -/

theorem zext16_ne_zero (b : Bool) : (zext16 b != 0#16) = b := by cases b <;> rfl

theorem memSet_invalid (m : Memory) {a : Word} (v : Word) (inv : Bool) (h : decodeAddr a = none) :
    memSet m a v inv = m := by simp [memSet, h]

theorem memSet_bit (m : Memory) {a : Word} (v : Word) (inv : Bool) {r : Region} {i : Nat}
    (h : decodeAddr a = some (r, i)) (hr : r.isBit = true) :
    (memSet m a v inv).bit r i = ((v != 0#16) ^^ inv) := by
  simp only [memSet, h, hr, if_true, Memory.bit, Memory.read_write_self, zext16_ne_zero]

theorem memSet_word (m : Memory) {a : Word} (v : Word) (inv : Bool) {r : Region} {i : Nat}
    (h : decodeAddr a = some (r, i)) (hr : r.isBit = false) :
    (memSet m a v inv).word r i = if inv then ~~~v else v := by
  simp [memSet, h, hr, Memory.word]

theorem memSet_cellStored (m : Memory) (a v : Word) (inv : Bool) :
    CellStored m (memSet m a v inv) a v inv := by
  refine ⟨memSet_invalid m v inv, fun _ hk => memSet_read_ne m a v inv hk,
    fun r i h => ⟨memSet_bit m v inv h, fun hr => ?word⟩⟩
  case word => rw [memSet_word m v inv h hr, toNat_complement_if]

/-- Settles O12: `memSet_cellStored` at every memory and address. -/
theorem memSetWritesOneCell : Obligations.MemSetWritesOneCell := memSet_cellStored

end Sys2Proof.Machine

/-! # The encoded line and the assembler's word

A word is its opcode and its flag bits (`irWord`): `decode` and `encode` meet in the fields, and what
`parse` returns is the `irWord` of the opcode it matched and the flag characters it scanned. -/

namespace Sys2Proof

/-! ## Encoding -/

/-- The fields of the encoded word select the row and its grouped form again (40_engine.md R71). -/
theorem decodeLine_irWord {i : Instr} (hi : i.wellFormed = true) :
    decodeLine (irWord i.opcode i.flagBits) i.operand = i := by
  simp only [decodeLine, opField_irWord, flagBitsOf_irWord]
  cases i
  case load f opr | stor f opr =>
    have hfg : f.fg = false := by simpa [Instr.wellFormed] using hi
    simp [Instr.opcode, Instr.flagBits, Instr.operand, hfg]
  case loadGroup f opr | storGroup f opr =>
    have hfg : f.fg = true := hi
    simp [Instr.opcode, Instr.flagBits, Instr.operand, hfg]
  all_goals rfl

/-- Settles O1: a line of two words is decoded by `decodeLine`, which inverts `irWord`. -/
theorem decodeOfEncode : Obligations.DecodeOfEncode :=
  fun _ hi => congrArg Except.ok (decodeLine_irWord hi)

/-- The decoder keeps a defined opcode; an undefined one is dropped (log 11). -/
theorem decodeLine_opcode {w : Word} (opr : Word) (hw : (opField w).toNat ≤ 21) :
    (decodeLine w opr).opcode = opField w := by
  apply BitVec.eq_of_toNat_eq
  simp only [decodeLine]
  split
  case h_1 hop | h_2 hop => rw [hop]; cases (flagBitsOf w).fg <;> rfl
  case h_22 =>
    have hzero : (opField w).toNat = 0 := by
      simp only [imp_false] at *
      omega
    rw [hzero]; rfl
  all_goals
    next hop => rw [hop]; rfl

/-- Settles O2: the decoded fields are those of the word, and a word is its fields. -/
theorem encodeOfDecode : Obligations.EncodeOfDecode := by
  refine fun w opr => ⟨Machine.decodeLine_wellFormed w opr, fun hw => ?_⟩
  rw [encode, decodeLine_opcode opr hw, decodeLine_flagBits, decodeLine_operand, irWord_fields]

/-! ## Words as fields -/

/-- The flag bits set in either of two words (`flagBitsOf_or`). -/
def FlagBits.union (f g : FlagBits) : FlagBits :=
  ⟨f.rsv ||| g.rsv, f.fg || g.fg, f.fc || g.fc, f.fn || g.fn, f.fi || g.fi⟩

theorem toNat_append_eq_add {m n : Nat} (x : BitVec m) (y : BitVec n) :
    (x ++ y).toNat = x.toNat * 2 ^ n + y.toNat := by
  rw [BitVec.toNat_append, ← Nat.shiftLeft_add_eq_or_of_lt y.isLt, Nat.shiftLeft_eq]

/-- The weight of each field of a word (spec/30_encoding.md R51). -/
theorem toNat_irWord (op : BitVec 8) (f : FlagBits) :
    (irWord op f).toNat = f.rsv.toNat * 4096 + f.fg.toNat * 2048 + f.fc.toNat * 1024 +
      f.fn.toNat * 512 + f.fi.toNat * 256 + op.toNat := by
  simp only [irWord, toNat_append_eq_add, BitVec.toNat_ofBool]
  omega

theorem toNat_irWord_lt (op : BitVec 8) {f : FlagBits} (hrsv : f.rsv = 0#4) :
    (irWord op f).toNat < 4096 := by
  have hfg := f.fg.toNat_le
  have hfc := f.fc.toNat_le
  have hfn := f.fn.toNat_le
  have hfi := f.fi.toNat_le
  rw [toNat_irWord, hrsv, BitVec.toNat_ofNat]
  omega

theorem opField_or (v w : Word) : opField (v ||| w) = opField v ||| opField w :=
  BitVec.extractLsb'_or

theorem flagBitsOf_or (v w : Word) :
    flagBitsOf (v ||| w) = (flagBitsOf v).union (flagBitsOf w) := by
  simp only [flagBitsOf, FlagBits.union, BitVec.extractLsb'_or, BitVec.getLsbD_or]

theorem irWord_or (a b : BitVec 8) (f g : FlagBits) :
    irWord a f ||| irWord b g = irWord (a ||| b) (f.union g) := by
  rw [← irWord_fields (irWord a f ||| irWord b g), opField_or, flagBitsOf_or]
  simp only [opField_irWord, flagBitsOf_irWord]

end Sys2Proof

namespace Sys2Proof.Machine

/-! ## The flags of a token -/

/-- The flag bits a list of characters sets (spec/30_encoding.md R64). -/
def flagsOfChars (cs : List Char) : FlagBits :=
  ⟨0#4, decide (openBrace ∈ cs), decide ('C' ∈ cs), decide ('N' ∈ cs), decide ('I' ∈ cs)⟩

/-- The bit one character sets is the flag bits of that character alone. -/
theorem scanFlags_cons (c : Char) (cs : List Char) :
    scanFlags (c :: cs) = irWord 0#8 (flagsOfChars [c]) ||| scanFlags cs := by
  rw [scanFlags]
  congr 1
  split_ifs with hI hN hC hG
  · subst hI; decide
  · subst hN; decide
  · subst hC; decide
  · subst hG; decide
  · have hnone : flagsOfChars [c] = flagsOfChars [] := by
      simp [flagsOfChars, Ne.symm hI, Ne.symm hN, Ne.symm hC, Ne.symm hG]
    rw [hnone]
    decide

theorem scanFlags_eq_irWord (cs : List Char) : scanFlags cs = irWord 0#8 (flagsOfChars cs) := by
  induction cs with
  | nil => decide
  | cons c cs ih => rw [scanFlags_cons, ih, irWord_or]; simp [flagsOfChars, FlagBits.union]

theorem flagPart_append_underscore {before : List Char} (hb : '_' ∉ before) (after : List Char) :
    flagPart (before ++ '_' :: after) = after := by
  induction before with
  | nil => rfl
  | cons c cs ih =>
    obtain ⟨hc, hcs⟩ := List.ne_and_not_mem_of_not_mem_cons hb
    rw [List.cons_append, flagPart, if_neg (Ne.symm hc), ih hcs]

theorem flagPart_of_not_mem {token : List Char} (ht : '_' ∉ token) : flagPart token = [] := by
  induction token with
  | nil => rfl
  | cons c cs ih =>
    obtain ⟨hc, hcs⟩ := List.ne_and_not_mem_of_not_mem_cons ht
    rw [flagPart, if_neg (Ne.symm hc), ih hcs]

/-! ## The opcode of a token -/

/-- Either some entry of the list that the token begins with gives its opcode, or there is none. -/
theorem firstMatch_cases (table : List (List Char × Word)) (token : List Char) :
    (∃ e ∈ table, e.1 <+: token ∧ firstMatch table token = e.2) ∨
      ((∀ e ∈ table, ¬ e.1 <+: token) ∧ firstMatch table token = 0#16) := by
  induction table with
  | nil => exact .inr ⟨by simp, rfl⟩
  | cons e rest ih =>
    by_cases he : e.1 <+: token
    · exact .inl ⟨e, List.mem_cons_self, he, if_pos (List.isPrefixOf_iff_prefix.mpr he)⟩
    · have hskip : firstMatch (e :: rest) token = firstMatch rest token :=
        if_neg (mt List.isPrefixOf_iff_prefix.mp he)
      rw [hskip]
      rcases ih with ⟨d, hd, hpre, heq⟩ | ⟨hnone, heq⟩
      · exact .inl ⟨d, List.mem_cons_of_mem e hd, hpre, heq⟩
      · exact .inr ⟨List.forall_mem_cons.mpr ⟨he, hnone⟩, heq⟩

/-- No mnemonic begins another (spec/30_encoding.md R63), so their order does not matter. -/
theorem mnemonics_prefix_free : ∀ d ∈ mnemonics, ∀ e ∈ mnemonics, d.1 <+: e.1 → d = e := by decide

theorem firstMatch_mnemonics_of_prefix {e : List Char × Word} (he : e ∈ mnemonics)
    {token : List Char} (hpre : e.1 <+: token) : firstMatch mnemonics token = e.2 := by
  rcases firstMatch_cases mnemonics token with ⟨d, hd, hdpre, heq⟩ | ⟨hnone, -⟩
  · rcases List.prefix_or_prefix_of_prefix hdpre hpre with hde | hed
    · rw [heq, mnemonics_prefix_free d hd e he hde]
    · rw [heq, mnemonics_prefix_free e he d hd hed]
  · exact absurd hpre (hnone e he)

theorem firstMatch_mnemonics_le (token : List Char) : (firstMatch mnemonics token).toNat ≤ 21 := by
  have hcodes : ∀ e ∈ mnemonics, e.2.toNat ≤ 21 := by decide
  rcases firstMatch_cases mnemonics token with ⟨e, he, -, heq⟩ | ⟨-, heq⟩ <;> rw [heq]
  · exact hcodes e he
  · decide

/-! ## The word of a token -/

/-- The opcode of the first mnemonic of the list that the token begins with, as the opcode field. -/
def tokenOpcode (token : List Char) : BitVec 8 := (firstMatch mnemonics token).setWidth 8

theorem toNat_tokenOpcode (token : List Char) :
    (tokenOpcode token).toNat = (firstMatch mnemonics token).toNat := by
  have hle := firstMatch_mnemonics_le token
  rw [tokenOpcode, BitVec.toNat_setWidth]
  omega

/-- `op | flags` (spec/30_encoding.md R61) puts the two in separate fields. -/
theorem parse_eq_irWord (token : List Char) :
    parse token = irWord (tokenOpcode token) (flagsOfChars (flagPart token)) := by
  have hop : firstMatch mnemonics token = irWord (tokenOpcode token) (flagsOfChars []) := by
    apply BitVec.eq_of_toNat_eq
    simp [toNat_irWord, toNat_tokenOpcode, flagsOfChars]
  rw [parse, hop, scanFlags_eq_irWord, irWord_or]
  simp [flagsOfChars, FlagBits.union]

theorem toNat_opField_parse (token : List Char) :
    (opField (parse token)).toNat = (firstMatch mnemonics token).toNat := by
  rw [parse_eq_irWord, opField_irWord, toNat_tokenOpcode]

theorem flagBitsOf_parse (token : List Char) :
    flagBitsOf (parse token) = flagsOfChars (flagPart token) := by
  rw [parse_eq_irWord, flagBitsOf_irWord]

/-- Settles O7: the opcode field is a listed opcode or 0, and the reserved field is 0. -/
theorem parseGivesOpcodeAndFlags : Obligations.ParseGivesOpcodeAndFlags := by
  refine fun token => ⟨?opcode, ?word⟩
  case opcode => exact toNat_opField_parse token ▸ firstMatch_mnemonics_le token
  case word => exact parse_eq_irWord token ▸ toNat_irWord_lt _ rfl

/-- Settles O8: the table of the statement is `mnemonics`, where no mnemonic begins another. -/
theorem parseMatchesMnemonicPrefix : Obligations.ParseMatchesMnemonicPrefix := by
  intro token table htable
  have hmap : table = mnemonics.map fun e => (e.1, e.2.toNat) := htable.trans (by decide)
  subst hmap
  rw [toNat_opField_parse]
  refine ⟨fun m c hmem hpre => ?found, fun hnone => ?absent⟩
  case found =>
    obtain ⟨e, he, heq⟩ := List.mem_map.mp hmem
    obtain ⟨rfl, rfl⟩ := Prod.mk.inj heq
    rw [firstMatch_mnemonics_of_prefix he hpre]
  case absent =>
    rcases firstMatch_cases mnemonics token with ⟨e, he, hpre, -⟩ | ⟨-, heq⟩
    · exact absurd hpre (hnone _ _ (List.mem_map.mpr ⟨e, he, rfl⟩))
    · rw [heq]; rfl

/-- Settles O9: the flag bits of `parse` are those of the characters after the first underscore. -/
theorem parseScansFlagsAfterFirstUnderscore : Obligations.ParseScansFlagsAfterFirstUnderscore := by
  refine ⟨fun before after hb => ?underscore, fun token ht => ?plain⟩
  case underscore =>
    have hflags : flagBitsOf (parse (before ++ '_' :: after)) = flagsOfChars after := by
      rw [flagBitsOf_parse, flagPart_append_underscore hb]
    simp only [flagBitsOf, flagsOfChars, FlagBits.mk.injEq] at hflags
    obtain ⟨-, hfg, hfc, hfn, hfi⟩ := hflags
    simp only [hfg, hfc, hfn, hfi, decide_eq_true_iff, true_and]
    exact Iff.rfl
  case plain =>
    rw [parse_eq_irWord, flagPart_of_not_mem ht, toNat_irWord]
    simpa [flagsOfChars] using (tokenOpcode token).isLt

end Sys2Proof.Machine

/-! # What an instruction may write, and the boundary of a step

An instruction writes either data (the accumulator, the evaluation stack, `EDISC`, the cells) or, if it
is JUMP, CALL or RET, the next line and the call stack (40_engine.md R70, 70_reset_and_hazards.md R138).
Everything else of the state is the sequencer's and the host's. -/

namespace Sys2Proof.Machine

/-! ## The two kinds of effect -/

/-- From `s` to `t` nothing changes but the accumulator, the evaluation stack, `EDISC` and the cells. -/
def State.DataOnly (s t : State) : Prop :=
  t = { s with acc := t.acc, estk := t.estk, edisc := t.edisc, mem := t.mem }

/-- From `s` to `t` nothing changes but the line and the call stack. -/
def State.TransferOnly (s t : State) : Prop := t = { s with line := t.line, cstk := t.cstk }

theorem State.DataOnly.line {s t : State} (h : s.DataOnly t) : t.line = s.line :=
  (congrArg State.line h :)

theorem State.DataOnly.seq {s t : State} (h : s.DataOnly t) : t.seq = s.seq :=
  (congrArg State.seq h :)

theorem State.TransferOnly.seq {s t : State} (h : s.TransferOnly t) : t.seq = s.seq :=
  (congrArg State.seq h :)

theorem groupOpen_dataOnly (w v : Word) (s : State) : s.DataOnly (groupOpen w v s) := by
  rcases groupOpen_cases w v s with ⟨-, heq⟩ | ⟨-, heq⟩ <;> rw [heq] <;> rfl

theorem binaryOp_dataOnly (op : BinOp) (f : FlagBits) (opr : Word) (s : State) :
    s.DataOnly (binaryOp op f opr s) := by
  rcases binaryOp_cases op f opr s with ⟨-, heq⟩ | ⟨-, heq⟩ <;> rw [heq]
  · exact groupOpen_dataOnly _ _ s
  · rfl

/-- The entry was popped before: the other entries `es` are what the stack holds. -/
theorem completeDeferred_dataOnly (e : EvalEntry) (es : List EvalEntry) (s : State) :
    s.DataOnly (completeDeferred e (s.setEstk es)) := by
  rcases completeDeferred_cases e (s.setEstk es) with
    ⟨-, heq⟩ | ⟨-, heq⟩ | ⟨_, -, heq⟩ | ⟨-, -, -, heq⟩ <;> rw [heq] <;> rfl

theorem closeGroup_dataOnly (s : State) : s.DataOnly (closeGroup s) := by
  rcases closeGroup_cases s with ⟨-, heq⟩ | ⟨-, -, heq⟩ | ⟨-, e, es, -, heq⟩ <;> rw [heq]
  · rfl
  · rfl
  · exact completeDeferred_dataOnly e es s

theorem callLine_transferOnly (opr : Word) (s : State) : s.TransferOnly (callLine opr s) := by
  rcases callLine_cases opr s with ⟨-, heq⟩ | ⟨-, heq⟩ <;> rw [heq] <;> rfl

theorem returnLine_transferOnly (s : State) : s.TransferOnly (returnLine s) := by
  rcases returnLine_cases s with ⟨-, heq⟩ | ⟨_, _, -, heq⟩ <;> rw [heq] <;> rfl

/-! ## Instructions -/

theorem effectOf_dataOnly {i : Instr} (hi : i.isTransfer = false) (s : State) :
    s.DataOnly (effectOf i s) := by
  cases i with
  | nop f opr | load f opr | stor f opr => rfl
  | loadGroup f opr | storGroup f opr => exact groupOpen_dataOnly _ opr s
  | set f opr | rst f opr =>
    exact iteInduction (motive := s.DataOnly) (fun _ => rfl) fun _ => rfl
  | and f opr | or f opr | xor f opr | add f opr | sub f opr | mul f opr | div f opr
  | gt f opr | ge f opr | eq f opr | ne f opr | le f opr | lt f opr =>
    exact binaryOp_dataOnly _ f opr s
  | close f opr => exact closeGroup_dataOnly s
  | jump f opr | call f opr | ret f opr => cases hi

theorem effectOf_transferOnly {i : Instr} (hi : i.isTransfer = true) (s : State) :
    s.TransferOnly (effectOf i s) := by
  cases i with
  | jump f opr =>
    exact iteInduction (motive := s.TransferOnly) (fun _ => rfl) fun _ => rfl
  | call f opr =>
    exact iteInduction (motive := s.TransferOnly) (fun _ => callLine_transferOnly opr s) fun _ => rfl
  | ret f opr =>
    exact iteInduction (motive := s.TransferOnly) (fun _ => returnLine_transferOnly s) fun _ => rfl
  | _ => cases hi

theorem effectOf_seq (i : Instr) (s : State) : (effectOf i s).seq = s.seq := by
  cases hi : i.isTransfer
  · exact (effectOf_dataOnly hi s).seq
  · exact (effectOf_transferOnly hi s).seq

/-- The line an execute step sets before the effect is `(LINE + 1) mod 2^16` (40_engine.md R70). -/
theorem line_add_one_eq_nextLine (s : State) : s.line + 1#16 = nextLine s := by
  apply BitVec.eq_of_toNat_eq
  simp [nextLine, BitVec.toNat_add]

/-- Settles O39: the effect of an instruction that is no transfer writes only data, so the line stays
the one the execute step set. -/
theorem onlyTransfersReplaceTheNextLine : Obligations.OnlyTransfersReplaceTheNextLine := by
  intro i s t hi hx
  obtain ⟨-, rfl⟩ := exec_eq_next.mp hx
  calc (effectOf i (s.setLine (s.line + 1#16))).line
      = s.line + 1#16 := (effectOf_dataOnly hi _).line
    _ = nextLine s := line_add_one_eq_nextLine s

/-! ## The host's operations -/

theorem allowed_startScan {s : State} (hseq : s.seq = .idle) (hinit : s.init = true) :
    HostOp.startScan.allowed s = true := by simp [HostOp.allowed, hseq, hinit]

theorem allowed_execute {s : State} (w opr line : Word) (hseq : s.seq = .idle)
    (hinit : s.init = true) : (HostOp.execute w opr line).allowed s = true := by
  simp [HostOp.allowed, hseq, hinit]

/-- Settles O50: `start_scan` is allowed there, and its effect writes only `LINE` and `SEQ`. -/
theorem startScanBeginsAtLineZero : Obligations.StartScanBeginsAtLineZero :=
  fun _ _ hp hseq hinit => step_of_allowed hp (allowed_startScan hseq hinit)

/-- Settles O54: the direct `execute` is allowed there, its instruction completes since `INIT` = 1, and
no instruction writes `SEQ`. -/
theorem directExecuteRunsOneInstruction : Obligations.DirectExecuteRunsOneInstruction := by
  intro s w opr line rest hp hseq hinit
  have hexec : exec (decodeLine w opr) ((s.setPending rest).setLine line) =
      .next (effectOf (decodeLine w opr) ((s.setPending rest).setLine (line + 1#16))) :=
    exec_eq_next.mpr ⟨hinit, rfl⟩
  refine ⟨_, hexec, effectOf_seq _ _, ?_⟩
  rw [step_of_allowed hp (allowed_execute w opr line hseq hinit)]
  exact directExecute_eq_next.mpr ⟨_, hexec, rfl⟩

/-- Settles O55: both reads are allowed in every state, and their effect writes only the reply. -/
theorem hostReadsChangeNothing : Obligations.HostReadsChangeNothing :=
  fun _ _ => ⟨fun hp => step_of_allowed hp rfl, fun _ hp => step_of_allowed hp rfl⟩

end Sys2Proof.Machine

/-! # NOP, SET, RST and the undefined opcodes

With `INIT` = 1 an instruction completes with its effect at the next line. NOP has none, and an opcode
that R53 does not list decodes to NOP; SET and RST share one effect, a store under the accumulator's
test, and differ in the value stored. -/

namespace Sys2Proof

theorem toNat_opField (w : Word) : (opField w).toNat = w.toNat % 256 := by
  rw [opField, BitVec.extractLsb'_toNat, Nat.shiftRight_zero]

/-- Opcode values 22..255 decode as NOP (spec/30_encoding.md R54, R60). -/
theorem decodeLine_of_undefined {w : Word} (opr : Word) (hw : 22 ≤ (opField w).toNat) :
    decodeLine w opr = .nop (flagBitsOf w) opr := by
  simp only [decodeLine]
  split
  case h_22 => rfl
  all_goals omega

end Sys2Proof

namespace Sys2Proof.Machine

/-- With `INIT` = 1 every instruction completes, and its effect sees the default next line
(40_engine.md R69, R70). -/
theorem exec_of_init (i : Instr) {s : State} (hinit : s.init = true) :
    exec i s = .next (effectOf i (s.setLine (nextLine s))) :=
  exec_eq_next.mpr ⟨hinit, by rw [line_add_one_eq_nextLine]⟩

/-- Settles O15: NOP has the empty effect. -/
theorem nopChangesOnlyTheLine : Obligations.NopChangesOnlyTheLine :=
  fun f opr _ hinit => exec_of_init (.nop f opr) hinit

/-- Settles O3: the line decodes to NOP with the word's own flags, which NOP ignores. -/
theorem undefinedOpcodesExecuteAsNop : Obligations.UndefinedOpcodesExecuteAsNop := by
  intro w opr s hinit hw
  rw [decodeLine_of_undefined opr (toNat_opField w ▸ hw)]
  exact nopChangesOnlyTheLine (flagBitsOf w) opr s hinit

/-! ## A store under the accumulator's test -/

/-- The effect SET and RST share: `v` is stored at the operand if the test holds (41_nop_set_rst.md R89,
R90). `effectOf` writes it out for both. -/
def testedStore (f : FlagBits) (opr v : Word) (s : State) : State :=
  if accCond s f.fn then store opr v false s else s

theorem testedStore_of_test {f : FlagBits} {s : State} (opr v : Word) (h : accCond s f.fn = true) :
    testedStore f opr v s = s.setMem (memSet s.mem opr v false) := if_pos h

theorem testedStore_of_not_test {f : FlagBits} {s : State} (opr v : Word)
    (h : accCond s f.fn = false) : testedStore f opr v s = s := by
  rw [testedStore, h, if_neg Bool.false_ne_true]

/-- The line and the cells are all an instruction with this effect changes, the cells as a `MemSet`
without invert when the test holds on the state it starts in. -/
theorem exec_of_testedStore {i : Instr} {f : FlagBits} {opr v : Word}
    (heff : effectOf i = testedStore f opr v) {s : State} (hinit : s.init = true) :
    ∃ t, exec i s = .next t ∧ t = { s with line := nextLine s, mem := t.mem } ∧
      (accCond s f.fn = true → CellStored s.mem t.mem opr v false) ∧
      (accCond s f.fn = false → t.mem = s.mem) := by
  refine ⟨_, exec_of_init i hinit, ?_⟩
  rw [heff]
  cases htest : accCond s f.fn with
  | true =>
    rw [testedStore_of_test (s := s.setLine (nextLine s)) opr v htest]
    exact ⟨rfl, fun _ => memSet_cellStored s.mem opr v false, nofun⟩
  | false =>
    rw [testedStore_of_not_test (s := s.setLine (nextLine s)) opr v htest]
    exact ⟨rfl, nofun, fun _ => rfl⟩

/-- Settles O16: SET stores 1 under the test. -/
theorem setStoresOneWhenTestHolds : Obligations.SetStoresOneWhenTestHolds :=
  fun f opr _ hinit => exec_of_testedStore (i := .set f opr) rfl hinit

/-- Settles O17: RST stores 0 under the test. -/
theorem rstStoresZeroWhenTestHolds : Obligations.RstStoresZeroWhenTestHolds :=
  fun f opr _ hinit => exec_of_testedStore (i := .rst f opr) rfl hinit

end Sys2Proof.Machine

/-! # JUMP, CALL and RET

A transfer acts under its gate. A true gate applies the transfer to the state whose line is already the
next one, and a false gate leaves that state, so the execution falls through. -/

namespace Sys2Proof.Machine

/-! ## The gate (40_engine.md R77) -/

theorem gate_eq_true_iff {s : State} {f : FlagBits} :
    gate s f = true ↔ f.fc = false ∨ ((s.acc != 0#16) ^^ f.fn) = true := by
  rw [gate, Bool.or_eq_true, Bool.not_eq_true', accCond]

theorem gate_eq_false_iff {s : State} {f : FlagBits} :
    gate s f = false ↔ f.fc = true ∧ ((s.acc != 0#16) ^^ f.fn) = false := by
  rw [gate, Bool.or_eq_false_iff, Bool.not_eq_false', accCond]

/-- The effect of a transfer: `act` under the gate. `effectOf` writes it out for JUMP, CALL and RET. -/
def gated (f : FlagBits) (act : State → State) (s : State) : State :=
  if gate s f then act s else s

section
variable {i : Instr} {f : FlagBits} {act : State → State} (heff : effectOf i = gated f act)
  {s : State} (hinit : s.init = true)
include heff hinit

theorem exec_of_gate (hgate : gate s f = true) :
    exec i s = .next (act (s.setLine (nextLine s))) := by
  rw [exec_of_init i hinit, heff]
  exact congrArg _ (if_pos hgate)

theorem exec_of_not_gate (hgate : gate s f = false) :
    exec i s = .next (s.setLine (nextLine s)) := by
  rw [exec_of_init i hinit, heff]
  exact congrArg _ (if_neg (ne_true_of_eq_false hgate))

end

/-! ## What a transfer does to the line and the call stack -/

theorem callLine_of_room (opr : Word) {s : State} (hroom : s.csp < Config.callDepth) :
    callLine opr s = (s.setCstk (s.line :: s.cstk)).setLine opr := by
  rcases callLine_cases opr s with ⟨-, heq⟩ | ⟨hfull, -⟩
  · exact heq
  · exact absurd hroom hfull.not_gt

theorem callLine_of_full (opr : Word) {s : State} (hfull : Config.callDepth ≤ s.csp) :
    callLine opr s = s := by
  rcases callLine_cases opr s with ⟨hroom, -⟩ | ⟨-, heq⟩
  · exact absurd hroom hfull.not_gt
  · exact heq

theorem returnLine_of_cons {s : State} {l : Word} {ls : List Word} (hs : s.cstk = l :: ls) :
    returnLine s = (s.setCstk ls).setLine l := by
  rcases returnLine_cases s with ⟨hnil, -⟩ | ⟨k, ks, hcons, heq⟩
  · cases hs.symm.trans hnil
  · cases hs.symm.trans hcons
    exact heq

theorem returnLine_of_nil {s : State} (hs : s.cstk = []) :
    returnLine s = s.setLine Config.sentinel := by
  rcases returnLine_cases s with ⟨-, heq⟩ | ⟨k, ks, hcons, -⟩
  · exact heq
  · cases hs.symm.trans hcons

/-! ## The three instructions -/

/-- Settles O35: a true gate sets the line to the operand, a false one falls through. -/
theorem jumpFollowsItsGate : Obligations.JumpFollowsItsGate := by
  intro f opr s hinit
  have heff : effectOf (.jump f opr) = gated f (State.setLine · opr) := rfl
  cases hgate : gate s f with
  | true =>
    rw [if_pos (gate_eq_true_iff.mp hgate)]
    exact exec_of_gate heff hinit hgate
  | false =>
    rw [if_neg (gate_eq_true_iff.not.mp (ne_true_of_eq_false hgate))]
    exact exec_of_not_gate heff hinit hgate

/-- Settles O36: under a true gate CALL is `callLine` at the next line, which pushes or falls through. -/
theorem callPushesTheNextLine : Obligations.CallPushesTheNextLine := by
  intro f opr s hinit
  have heff : effectOf (.call f opr) = gated f (callLine opr) := rfl
  refine ⟨fun htaken hroom => ?taken, fun htaken hfull => ?full, fun hfc htest => ?notTaken⟩
  case taken =>
    rw [exec_of_gate heff hinit (gate_eq_true_iff.mpr htaken),
      callLine_of_room (s := s.setLine (nextLine s)) opr hroom]
    rfl
  case full =>
    rw [exec_of_gate heff hinit (gate_eq_true_iff.mpr htaken),
      callLine_of_full (s := s.setLine (nextLine s)) opr hfull]
    rfl
  case notTaken => exact exec_of_not_gate heff hinit (gate_eq_false_iff.mpr ⟨hfc, htest⟩)

/-- Settles O37: under a true gate RET is `returnLine`, which pops or gives the sentinel. -/
theorem retPopsTheCallStack : Obligations.RetPopsTheCallStack := by
  intro f opr s hinit
  have heff : effectOf (.ret f opr) = gated f returnLine := rfl
  refine ⟨fun l ls htaken hs => ?popped, fun htaken hs => ?empty, fun hfc htest => ?notTaken⟩
  case popped =>
    rw [exec_of_gate heff hinit (gate_eq_true_iff.mpr htaken),
      returnLine_of_cons (s := s.setLine (nextLine s)) hs]
    rfl
  case empty =>
    rw [exec_of_gate heff hinit (gate_eq_true_iff.mpr htaken),
      returnLine_of_nil (s := s.setLine (nextLine s)) hs]
    rfl
  case notTaken => exact exec_of_not_gate heff hinit (gate_eq_false_iff.mpr ⟨hfc, htest⟩)

end Sys2Proof.Machine

/-! # LOAD and STOR

With G clear LOAD writes the accumulator and STOR the addressed cell. With G set both are a group open at
the next line, which pushes or is counted; they differ only in the word they save. -/

namespace Sys2Proof.Machine

/-! ## G clear -/

/-- Settles O18: the effect of LOAD writes `loadValue` to `ACC`, which is the literal or the cell and does
not depend on the line. -/
theorem loadReadsLiteralOrCell : Obligations.LoadReadsLiteralOrCell :=
  fun f opr _ hinit => exec_of_init (.load f opr) hinit

/-- Settles O19: the effect of STOR is one `MemSet`, which stores as `memSet_cellStored` says. -/
theorem storStoresTheAccumulator : Obligations.StorStoresTheAccumulator :=
  fun f opr s hinit =>
    ⟨_, exec_of_init (.stor f opr) hinit, rfl, memSet_cellStored s.mem opr s.acc f.fn⟩

/-! ## Group opens (40_engine.md R76) -/

theorem groupOpen_of_room (w v : Word) {s : State} (hroom : s.esp < Config.evalDepth) :
    groupOpen w v s = (s.setEstk (⟨w, s.acc⟩ :: s.estk)).setAcc v := by
  rcases groupOpen_cases w v s with ⟨-, heq⟩ | ⟨hfull, -⟩
  · exact heq
  · exact absurd hroom hfull.not_gt

theorem groupOpen_of_full (w v : Word) {s : State} (hfull : Config.evalDepth ≤ s.esp) :
    groupOpen w v s = s.setEdisc (ediscUp s.edisc) := by
  rcases groupOpen_cases w v s with ⟨hroom, -⟩ | ⟨-, heq⟩
  · exact absurd hroom hfull.not_gt
  · exact heq

section
variable {i : Instr} {w v : Word} {s : State}
  (heff : effectOf i (s.setLine (nextLine s)) = groupOpen w v (s.setLine (nextLine s)))
  (hinit : s.init = true)
include heff hinit

/-- An instruction whose effect at the next line is a group open pushes below `EVAL_DEPTH` entries. -/
theorem exec_of_groupOpen_room (hroom : s.esp < Config.evalDepth) :
    exec i s = .next { s with line := nextLine s, acc := v, estk := ⟨w, s.acc⟩ :: s.estk } := by
  rw [exec_of_init i hinit, heff, groupOpen_of_room (s := s.setLine (nextLine s)) w v hroom]
  rfl

/-- On a full stack such an instruction is only counted. -/
theorem exec_of_groupOpen_full (hfull : Config.evalDepth ≤ s.esp) :
    exec i s = .next { s with line := nextLine s, edisc := ediscUp s.edisc } := by
  rw [exec_of_init i hinit, heff, groupOpen_of_full (s := s.setLine (nextLine s)) w v hfull]
  rfl

end

/-- Settles O20: both instructions are a group open of their own word with the operand as its value. -/
theorem loadAndStorGroupsOpen : Obligations.LoadAndStorGroupsOpen := by
  intro f opr s hinit
  refine ⟨fun hroom => ⟨?loadPush, ?storPush⟩, fun hfull => ⟨?loadCount, ?storCount⟩⟩
  case loadPush => exact exec_of_groupOpen_room (i := .loadGroup f opr) rfl hinit hroom
  case storPush => exact exec_of_groupOpen_room (i := .storGroup f opr) rfl hinit hroom
  case loadCount => exact exec_of_groupOpen_full (i := .loadGroup f opr) rfl hinit hfull
  case storCount => exact exec_of_groupOpen_full (i := .storGroup f opr) rfl hinit hfull

end Sys2Proof.Machine

/-! # The binary operators

All thirteen share the operand fetch and the group open (44_binary_operators.md R100) and differ in
the function they apply. `BinOp.onNat` is that function on the numbers the words stand for (R99, R101
to R113); the statements about single operators are its cases. -/

namespace Sys2Proof

/-- The function of each operator on the numbers of its two operands (44_binary_operators.md R101 to
R113). -/
def BinOp.onNat : BinOp → Nat → Nat → Nat
  | .and => fun x y => x &&& y
  | .or => fun x y => x ||| y
  | .xor => fun x y => x ^^^ y
  | .add => fun x y => (x + y) % 65536
  | .sub => fun x y => (x + 65536 - y) % 65536
  | .mul => fun x y => (x * y) % 65536
  | .div => fun x y => if y = 0 then 0 else x / y
  | .gt => fun x y => if x > y then 1 else 0
  | .ge => fun x y => if x ≥ y then 1 else 0
  | .eq => fun x y => if x = y then 1 else 0
  | .ne => fun x y => if x = y then 0 else 1
  | .le => fun x y => if x ≤ y then 1 else 0
  | .lt => fun x y => if x < y then 1 else 0

end Sys2Proof

namespace Sys2Proof.Machine

/-! ## The functions on numbers -/

theorem toNat_zext16_decide (p : Prop) [Decidable p] :
    (zext16 (decide p)).toNat = if p then 1 else 0 :=
  (toNat_zext16 _).trans (if_congr decide_eq_true_iff rfl rfl)

theorem toNat_binResult (op : BinOp) (a b : Word) :
    (binResult op a b).toNat = op.onNat a.toNat b.toNat := by
  cases op with
  | and => exact BitVec.toNat_and ..
  | or => exact BitVec.toNat_or ..
  | xor => exact BitVec.toNat_xor ..
  | add => exact BitVec.toNat_add ..
  | sub =>
    have hb := b.isLt
    rw [binResult, BitVec.toNat_sub, BinOp.onNat]
    congr 1
    omega
  | mul => exact BitVec.toNat_mul ..
  | div =>
    rw [binResult, BinOp.onNat, apply_ite BitVec.toNat, BitVec.toNat_udiv]
    exact if_congr (BitVec.toNat_inj (y := 0#16)).symm rfl rfl
  | eq =>
    rw [binResult, toNat_zext16_decide, BinOp.onNat]
    exact if_congr BitVec.toNat_inj.symm rfl rfl
  | ne =>
    rw [binResult, toNat_zext16_decide, BinOp.onNat, ite_not]
    exact if_congr BitVec.toNat_inj.symm rfl rfl
  | gt | ge | le | lt => exact toNat_zext16_decide _

/-- With N the second operand is the complement, for every operator (44_binary_operators.md R99). -/
theorem toNat_applyOp (op : BinOp) (a b : Word) (neg : Bool) :
    (applyOp op a b neg).toNat = op.onNat a.toNat (operandNat b neg) := by
  rw [applyOp, toNat_binResult, negated, toNat_complement_if]

/-- Settles O30: the thirteen cases of `toNat_applyOp`. -/
theorem applyComputesEachFunction : Obligations.ApplyComputesEachFunction := by
  rintro a b neg _ _ rfl rfl
  exact ⟨toNat_applyOp .and a b neg, toNat_applyOp .or a b neg, toNat_applyOp .xor a b neg,
    toNat_applyOp .add a b neg, toNat_applyOp .sub a b neg, toNat_applyOp .mul a b neg,
    toNat_applyOp .div a b neg, toNat_applyOp .gt a b neg, toNat_applyOp .ge a b neg,
    toNat_applyOp .eq a b neg, toNat_applyOp .ne a b neg, toNat_applyOp .le a b neg,
    toNat_applyOp .lt a b neg⟩

/-! ## The operand fetch, the group open and the evaluation at once -/

theorem binaryOp_of_group (op : BinOp) {f : FlagBits} (opr : Word) (s : State) (hg : f.fg = true) :
    binaryOp op f opr s = groupOpen (irWord op.code f) (binValue f opr s) s := if_pos hg

theorem binaryOp_of_not_group (op : BinOp) {f : FlagBits} (opr : Word) (s : State)
    (hg : f.fg = false) :
    binaryOp op f opr s = s.setAcc (applyOp op s.acc (binValue f opr s) f.fn) :=
  if_neg (ne_true_of_eq_false hg)

section
variable (op : BinOp) {f : FlagBits} (opr : Word) {s : State}

theorem exec_binary_of_not_group (hinit : s.init = true) (hg : f.fg = false) :
    exec (op.instr f opr) s = .next { s with
      line := nextLine s, acc := applyOp op s.acc (binValue f opr s) f.fn } := by
  rw [exec_of_init _ hinit, effectOf_binary, binaryOp_of_not_group op opr _ hg]
  rfl

/-- The operand is fetched at the next line and reads the same there. -/
theorem effectOf_binary_of_group (hg : f.fg = true) :
    effectOf (op.instr f opr) (s.setLine (nextLine s)) =
      groupOpen (irWord op.code f) (binValue f opr s) (s.setLine (nextLine s)) := by
  rw [effectOf_binary, binaryOp_of_group op opr _ hg]
  rfl

end

/-- Settles O21: with G clear the operator is applied, and with G set it is a group open of its own
word with the fetched value. -/
theorem binaryOperatorsFetchThenOpenOrApply : Obligations.BinaryOperatorsFetchThenOpenOrApply := by
  rintro op f opr _ s hinit rfl
  refine ⟨fun hg => ?apply, fun hg hroom => ?push, fun hg hfull => ?count⟩
  case apply => exact exec_binary_of_not_group op opr hinit hg
  case push => exact exec_of_groupOpen_room (effectOf_binary_of_group op opr hg) hinit hroom
  case count => exact exec_of_groupOpen_full (effectOf_binary_of_group op opr hg) hinit hfull

/-! ## The single operators, evaluated at once -/

/-- Every operator writes what its function gives on `ACC` and the second operand (R99, R100). -/
theorem binary_evaluatesTo (op : BinOp) : EvaluatesTo op.instr op.onNat :=
  fun _ opr _ hinit hg =>
    ⟨_, exec_binary_of_not_group op opr hinit hg, rfl, toNat_applyOp op _ _ _⟩

/-- Settles O31: the bitwise operators are the first three cases of `binary_evaluatesTo`. -/
theorem logicOperatorsAreBitwise : Obligations.LogicOperatorsAreBitwise :=
  ⟨binary_evaluatesTo .and, binary_evaluatesTo .or, binary_evaluatesTo .xor⟩

/-- Settles O32: the cases whose function is reduced modulo 2^16. -/
theorem arithmeticOperatorsWrap : Obligations.ArithmeticOperatorsWrap :=
  ⟨binary_evaluatesTo .add, binary_evaluatesTo .sub, binary_evaluatesTo .mul⟩

/-- Settles O33: the case of the quotient rounded down, with 0 for a zero divisor. -/
theorem divisionRoundsDownAndByZeroIsZero : Obligations.DivisionRoundsDownAndByZeroIsZero :=
  binary_evaluatesTo .div

/-- Settles O34: the six cases that compare the numbers, so that no sign is read. -/
theorem comparisonsAreUnsigned : Obligations.ComparisonsAreUnsigned :=
  ⟨binary_evaluatesTo .gt, binary_evaluatesTo .ge, binary_evaluatesTo .eq,
    binary_evaluatesTo .ne, binary_evaluatesTo .le, binary_evaluatesTo .lt⟩

end Sys2Proof.Machine

/-! # The close of a group

With no refused open counted, a close pops the top entry and completes the instruction its saved word
names: LOAD, STOR or a binary operator (45_close_group.md R114 to R117). -/

namespace Sys2Proof

theorem opField_eq_of_mod {w : Word} {op : BitVec 8} (h : w.toNat % 256 = op.toNat) :
    opField w = op := BitVec.eq_of_toNat_eq ((toNat_opField w).trans h)

end Sys2Proof

namespace Sys2Proof.Machine

/-! ## What completing an entry does, by its opcode -/

theorem completeDeferred_load {e : EvalEntry} (s : State) (hop : opField e.w = 1#8) :
    completeDeferred e s = s.setAcc (memGet s.mem s.acc (e.w.getLsbD 9)) := by
  rw [completeDeferred, hop]
  rfl

theorem completeDeferred_stor {e : EvalEntry} (s : State) (hop : opField e.w = 2#8) :
    completeDeferred e s = (store s.acc e.a (e.w.getLsbD 9) s).setAcc e.a := by
  rw [completeDeferred, hop]
  rfl

theorem completeDeferred_binary {e : EvalEntry} (s : State) {op : BinOp}
    (hop : opField e.w = op.code) :
    completeDeferred e s = s.setAcc (applyOp op e.a s.acc (e.w.getLsbD 9)) := by
  rw [completeDeferred, hop]
  cases op <;> rfl

/-! ## The close of an open group -/

theorem closeGroup_of_cons {s : State} {e : EvalEntry} {es : List EvalEntry} (hd : s.edisc = 0#16)
    (hs : s.estk = e :: es) : closeGroup s = completeDeferred e (s.setEstk es) := by
  rcases closeGroup_cases s with ⟨hne, -⟩ | ⟨-, hnil, -⟩ | ⟨-, d, ds, hcons, heq⟩
  · exact absurd hd hne
  · cases hs.symm.trans hnil
  · cases hs.symm.trans hcons
    exact heq

theorem exec_close_of_cons (f : FlagBits) (opr : Word) {s : State} {e : EvalEntry}
    {es : List EvalEntry} (hinit : s.init = true) (hd : s.edisc = 0#16) (hs : s.estk = e :: es) :
    exec (.close f opr) s =
      .next (completeDeferred e ((s.setLine (nextLine s)).setEstk es)) := by
  rw [exec_of_init _ hinit, effectOf, closeGroup_of_cons (s := s.setLine (nextLine s)) hd hs]

/-- Settles O24: the completed entry is a LOAD at the group's result. -/
theorem closeCompletesDeferredLoad : Obligations.CloseCompletesDeferredLoad := by
  intro f opr s e es hinit hd hs hop
  rw [exec_close_of_cons f opr hinit hd hs, completeDeferred_load _ (opField_eq_of_mod hop)]
  rfl

/-- Settles O25: the completed entry is one `MemSet` at the group's result, which stores as
`memSet_cellStored` says. -/
theorem closeCompletesDeferredStor : Obligations.CloseCompletesDeferredStor := by
  intro f opr s e es hinit hd hs hop
  rw [exec_close_of_cons f opr hinit hd hs, completeDeferred_stor _ (opField_eq_of_mod hop)]
  exact ⟨_, rfl, rfl, memSet_cellStored s.mem s.acc e.a (e.w.getLsbD 9)⟩

/-- Settles O26: the completed entry applies its operator, the same for all thirteen. -/
theorem closeCompletesDeferredOperator : Obligations.CloseCompletesDeferredOperator := by
  intro f opr s e es op hinit hd hs hop
  rw [exec_close_of_cons f opr hinit hd hs, completeDeferred_binary _ (opField_eq_of_mod hop)]
  rfl

end Sys2Proof.Machine

/-! # Reset

While IDLE an `init` is allowed whatever `INIT` is, and the step is `Init(provider)`
(70_reset_and_hazards.md R131). -/

namespace Sys2Proof.Machine

theorem allowed_init {s : State} (provider : Option (List (Word × Word))) (hseq : s.seq = .idle) :
    (HostOp.init provider).allowed s = true := beq_iff_eq.mpr hseq

theorem step_of_init {s : State} {provider : Option (List (Word × Word))} {rest : List HostOp}
    (hp : s.pending = .init provider :: rest) (hseq : s.seq = .idle) :
    step s = .next (initialise provider (s.setPending rest)) :=
  step_of_allowed hp (allowed_init provider hseq)

/-- With the provider that is bound, `Init` writes the registers of R131 and the reply: it does not touch
the cells, the program or, in this model, `LINE` (log 26). -/
theorem initialise_none (s : State) :
    initialise none s = { s with
      acc := 0#16, estk := [], cstk := [], edisc := 0#16, init := true, seq := .idle,
      reply := none } := rfl

/-- Settles O52: the step is `Init` with the provider that is bound, and `initialise_none` says what that
writes. -/
theorem initResetsTheRegisters : Obligations.InitResetsTheRegisters := by
  intro s rest hp hseq
  refine ⟨initialise none (s.setPending rest), step_of_init hp hseq, ?_⟩
  rw [initialise_none]
  rfl

end Sys2Proof.Machine

/-! # Reading back a store, and the canonical form of the cells

A read sees the one cell at its address, so it gives back what a store put there and what was in every
cell the store did not write (20_memory.md R42). In the canonical form a memory lists exactly the cells
that do not read as zero, in rising order, so the reads determine it (log 7). -/

namespace Sys2Proof.Machine

/-! ## `MemGet` after `MemSet` -/

theorem memGet_memSet_bit (m : Memory) {a : Word} (v : Word) (inv : Bool) {r : Region} {i : Nat}
    (h : decodeAddr a = some (r, i)) (hr : r.isBit = true) :
    memGet (memSet m a v false) a inv = zext16 ((v != 0#16) ^^ inv) := by
  rw [memGet_bit _ inv h hr, memSet_bit m v false h hr, Bool.xor_false]

theorem memGet_memSet_word (m : Memory) {a : Word} (v : Word) (inv : Bool) {r : Region} {i : Nat}
    (h : decodeAddr a = some (r, i)) (hr : r.isBit = false) :
    memGet (memSet m a v false) a inv = if inv then ~~~v else v := by
  rw [memGet_word _ inv h hr, memSet_word m v false h hr, if_neg Bool.false_ne_true]

theorem toNat_zext16_ne_zero (v : Word) :
    (zext16 (v != 0#16)).toNat = if v.toNat = 0 then 0 else 1 := by
  rw [toNat_zext16, ← ite_not (v.toNat = 0)]
  exact if_congr (bne_iff_ne.trans BitVec.toNat_inj.symm.not) rfl rfl

theorem toNat_zext16_eq_zero (v : Word) :
    (zext16 (!(v != 0#16))).toNat = if v.toNat = 0 then 1 else 0 := by
  rw [toNat_zext16, bne, Bool.not_not]
  exact if_congr (beq_iff_eq.trans BitVec.toNat_inj.symm) rfl rfl

/-- Settles O13: the store leaves the value in the one cell that the read sees. -/
theorem memGetAfterMemSet : Obligations.MemGetAfterMemSet := by
  refine fun m a v => ⟨fun h => ?invalid, fun r i h => ⟨fun hr => ?bit, fun hr => ?word⟩⟩
  case invalid => exact ⟨memGet_invalid _ false h, memGet_invalid _ true h⟩
  case bit =>
    rw [memGet_memSet_bit m v false h hr, memGet_memSet_bit m v true h hr, Bool.xor_false,
      Bool.xor_true]
    exact ⟨toNat_zext16_ne_zero v, toNat_zext16_eq_zero v⟩
  case word => exact ⟨memGet_memSet_word m v false h hr, memGet_memSet_word m v true h hr⟩

/-! ## The cells that a canonical memory lists -/

/-- With its addresses distinct, a list gives under an address the value it lists there. -/
theorem lookupCell_of_mem {cells : List (Nat × Word)} {k : Nat} {v : Word}
    (hs : cells.Pairwise fun c d => c.1 < d.1) (hmem : (k, v) ∈ cells) : lookupCell cells k = v := by
  induction cells with
  | nil => cases hmem
  | cons d rest ih =>
    obtain ⟨hd, hr⟩ := List.pairwise_cons.mp hs
    rcases List.mem_cons.mp hmem with rfl | hrest
    · exact if_pos rfl
    · exact (if_neg (hd (k, v) hrest).ne).trans (ih hr hrest)

theorem mem_of_lookupCell_ne {cells : List (Nat × Word)} {k : Nat}
    (h : lookupCell cells k ≠ Memory.unlisted) : (k, lookupCell cells k) ∈ cells := by
  induction cells with
  | nil => exact absurd rfl h
  | cons d rest ih =>
    simp only [lookupCell] at h ⊢
    split at h <;> rename_i hd
    · rw [if_pos hd, ← hd]
      exact List.mem_cons_self
    · rw [if_neg hd]
      exact List.mem_cons_of_mem d (ih h)

theorem Memory.wf_iff {m : Memory} : m.wf = true ↔
    (m.cells.Pairwise fun c d => c.1 < d.1) ∧ ∀ c ∈ m.cells, cellOk c = true := by
  rw [Memory.wf, Bool.and_eq_true, decide_eq_true_iff, List.all_eq_true]

theorem cellOk_listed {c : Nat × Word} (h : cellOk c = true) : c.2 ≠ Memory.unlisted := by
  rw [cellOk, Bool.and_eq_true, bne_iff_ne] at h
  exact h.1

/-- A canonical memory lists the cells that do not read as an unlisted one. -/
theorem Memory.mem_cells_iff {m : Memory} (hm : m.wf = true) {c : Nat × Word} :
    c ∈ m.cells ↔ m.read c.1 = c.2 ∧ c.2 ≠ Memory.unlisted := by
  obtain ⟨hs, hok⟩ := Memory.wf_iff.mp hm
  constructor
  · exact fun hmem => ⟨lookupCell_of_mem hs hmem, cellOk_listed (hok c hmem)⟩
  · rintro ⟨hread, hne⟩
    have hlisted : m.read c.1 ≠ Memory.unlisted := hread ▸ hne
    have hmem : (c.1, m.read c.1) ∈ m.cells := mem_of_lookupCell_ne hlisted
    rwa [hread] at hmem

/-- Settles O14: both memories list the same cells (`Memory.mem_cells_iff`), and each lists them in
rising order. -/
theorem canonicalMemoriesWithEqualCellsAreEqual :
    Obligations.CanonicalMemoriesWithEqualCellsAreEqual := by
  intro m n hm hn hread
  obtain ⟨hsm, -⟩ := Memory.wf_iff.mp hm
  obtain ⟨hsn, -⟩ := Memory.wf_iff.mp hn
  have nodup {l : List (Nat × Word)} (hs : l.Pairwise fun c d => c.1 < d.1) : l.Nodup :=
    hs.imp fun hlt heq => hlt.ne (congrArg Prod.fst heq)
  have hperm : m.cells.Perm n.cells :=
    (List.perm_ext_iff_of_nodup (nodup hsm) (nodup hsn)).mpr fun c => by
      rw [Memory.mem_cells_iff hm, Memory.mem_cells_iff hn, hread]
  have hcells : m.cells = n.cells :=
    hperm.eq_of_pairwise (fun _ _ _ _ hlt hgt => absurd hlt hgt.asymm) hsm hsn
  exact congrArg Memory.mk hcells

end Sys2Proof.Machine

/-! # The cells of a new provider

Binding a provider stores its cells one after another (log 20). A store leaves what is read at every
other address, so the last value given for an address is the one read there. -/

namespace Sys2Proof.Machine

/-- A read sees only the cell at its address. -/
theorem memGet_congr {m n : Memory} {a : Word} (inv : Bool) (h : m.read a.toNat = n.read a.toNat) :
    memGet m a inv = memGet n a inv := by
  cases hd : decodeAddr a with
  | none => rw [memGet_invalid m inv hd, memGet_invalid n inv hd]
  | some cell =>
    obtain ⟨r, i⟩ := cell
    obtain ⟨-, hkey⟩ := decodeAddr_eq_some hd
    rw [hkey] at h
    cases hr : r.isBit with
    | true => rw [memGet_bit m inv hd hr, memGet_bit n inv hd hr, Memory.bit, Memory.bit, h]
    | false => rw [memGet_word m inv hd hr, memGet_word n inv hd hr, Memory.word, Memory.word, h]

theorem memGet_memSet_ne (m : Memory) {a b : Word} (v : Word) (setInv inv : Bool) (hne : b ≠ a) :
    memGet (memSet m b v setInv) a inv = memGet m a inv :=
  memGet_congr inv (memSet_read_ne m b v setInv (BitVec.toNat_ne_iff_ne.mpr hne.symm))

/-- The memory after a list of cells is stored in it, one after another (`providerCells` starts with
none listed). -/
def storeAll (m : Memory) (cells : List (Word × Word)) : Memory :=
  cells.foldl (fun m c => memSet m c.1 c.2 false) m

theorem providerCells_eq_storeAll (cells : List (Word × Word)) :
    providerCells cells = storeAll ⟨[]⟩ cells := rfl

theorem memGet_storeAll_ne {cells : List (Word × Word)} {a : Word} (m : Memory)
    (hne : ∀ c ∈ cells, c.1 ≠ a) : memGet (storeAll m cells) a false = memGet m a false := by
  induction cells generalizing m with
  | nil => rfl
  | cons c rest ih =>
    obtain ⟨hc, hrest⟩ := List.forall_mem_cons.mp hne
    calc memGet (storeAll m (c :: rest)) a false
        = memGet (memSet m c.1 c.2 false) a false := ih _ hrest
      _ = memGet m a false := memGet_memSet_ne m c.2 false false hc

/-- The last value given for an address is read there. -/
theorem memGet_storeAll_last (m : Memory) (front : List (Word × Word)) {back : List (Word × Word)}
    {a : Word} (v : Word) (hback : ∀ c ∈ back, c.1 ≠ a) :
    memGet (storeAll m (front ++ (a, v) :: back)) a false =
      memGet (memSet (storeAll m front) a v false) a false := by
  rw [storeAll, List.foldl_append, List.foldl_cons]
  exact memGet_storeAll_ne _ hback

theorem memGet_unlisted (a : Word) : memGet ⟨[]⟩ a false = 0#16 := by
  cases hd : decodeAddr a with
  | none => exact memGet_invalid _ false hd
  | some cell =>
    obtain ⟨r, i⟩ := cell
    cases hr : r.isBit with
    | true => exact memGet_bit _ false hd hr
    | false => exact memGet_word _ false hd hr

/-- Settles O53: the step is `Init` with the new provider, whose cells are those of `storeAll`. -/
theorem initBindsADifferentProvider : Obligations.InitBindsADifferentProvider := by
  intro s cells rest hp hseq
  refine ⟨_, step_of_init hp hseq, rfl, fun a hne => ?unlisted, ?listed⟩
  case unlisted => exact (memGet_storeAll_ne ⟨[]⟩ hne).trans (memGet_unlisted a)
  case listed =>
    rintro front back a v rfl hback r i hd
    have hlast := memGet_storeAll_last ⟨[]⟩ front v hback
    refine ⟨fun hr => ?bit, fun hr => ?word⟩
    case bit =>
      have hget := hlast.trans (memGet_memSet_bit _ v false hd hr)
      rw [Bool.xor_false] at hget
      exact (congrArg BitVec.toNat hget).trans (toNat_zext16_ne_zero v)
    case word => exact hlast.trans (memGet_memSet_word _ v false hd hr)

/-- Settles O58: `Init` writes no `LINE`, whichever provider it binds (log 26). -/
theorem initKeepsTheLine : Obligations.InitKeepsTheLine :=
  fun _ _ _ hp hseq => ⟨_, step_of_init hp hseq, rfl⟩

end Sys2Proof.Machine

/-! # The instructions that open a group, and the close around them

A line with BeginGroup whose opcode is LOAD, STOR or a binary operator is a group open of its own word
(40_engine.md R76). A close finds what the open left: the saved word, or the count of a refused open
(45_close_group.md R114). -/

namespace Sys2Proof

/-- The opcodes 5..17 are those of the binary operators (spec/30_encoding.md R53). -/
theorem BinOp.ofCode_isSome_iff (op : BitVec 8) :
    (BinOp.ofCode op).isSome = true ↔ 5 ≤ op.toNat ∧ op.toNat ≤ 17 := by
  unfold BinOp.ofCode
  split
  case h_14 =>
    simp only [imp_false] at *
    simp only [Option.isSome_none, Bool.false_eq_true, false_iff]
    omega
  all_goals
    next hop => simp [hop]

/-- A word is the word of its decoded line, if its opcode is defined. -/
theorem irWord_decodeLine {w : Word} (opr : Word) (hw : (opField w).toNat ≤ 21) :
    irWord (decodeLine w opr).opcode (decodeLine w opr).flagBits = w := by
  rw [decodeLine_opcode opr hw, decodeLine_flagBits, irWord_fields]

end Sys2Proof

namespace Sys2Proof.Machine

/-! ## Opens -/

/-- With BeginGroup, LOAD, STOR and the binary operators are a group open of their own word. -/
theorem effectOf_opens {i : Instr} (hwf : i.wellFormed = true) (hg : i.flagBits.fg = true)
    (hop : i.opcode.toNat = 1 ∨ i.opcode.toNat = 2 ∨ (5 ≤ i.opcode.toNat ∧ i.opcode.toNat ≤ 17))
    (s : State) : ∃ v, effectOf i s = groupOpen (irWord i.opcode i.flagBits) v s := by
  cases i with
  | loadGroup f opr | storGroup f opr => exact ⟨opr, rfl⟩
  | and f opr | or f opr | xor f opr | add f opr | sub f opr | mul f opr | div f opr
  | gt f opr | ge f opr | eq f opr | ne f opr | le f opr | lt f opr =>
    exact ⟨_, binaryOp_of_group _ opr s hg⟩
  | load f opr | stor f opr =>
    have hclear : f.fg = false := (Bool.not_eq_true' _).mp hwf
    cases hclear.symm.trans hg
  | nop f opr | set f opr | rst f opr | jump f opr | call f opr | ret f opr | close f opr =>
    simp [Instr.opcode] at hop

/-- Settles O22: the line is a group open of the word it was fetched as. -/
theorem groupOpenSavesTheFetchedWord : Obligations.GroupOpenSavesTheFetchedWord := by
  intro w opr s hinit hroom hg hop
  rw [← toNat_opField] at hop
  have hdef : (opField w).toNat ≤ 21 := by omega
  obtain ⟨v, heff⟩ := effectOf_opens (decodeLine_wellFormed w opr)
    (by rw [decodeLine_flagBits]; exact hg) (by rw [decodeLine_opcode opr hdef]; exact hop)
    (s.setLine (nextLine s))
  rw [irWord_decodeLine opr hdef] at heff
  exact ⟨_, exec_of_groupOpen_room heff hinit hroom, rfl⟩

/-! ## Closes without an open group, and of an entry with another opcode -/

theorem closeGroup_of_discard {s : State} (hd : s.edisc ≠ 0#16) :
    closeGroup s = s.setEdisc (s.edisc - 1#16) := if_pos hd

theorem closeGroup_of_nil {s : State} (hd : s.edisc = 0#16) (hs : s.estk = []) :
    closeGroup s = s := by
  rcases closeGroup_cases s with ⟨hne, -⟩ | ⟨-, -, heq⟩ | ⟨-, e, es, hcons, -⟩
  · exact absurd hd hne
  · exact heq
  · cases hs.symm.trans hcons

theorem sub_one_eq_ofNat {d : Word} (hd : 0 < d.toNat) : d - 1#16 = BitVec.ofNat 16 (d.toNat - 1) := by
  bv_omega

/-- Settles O23: a counted open is consumed before the stack is looked at, and an empty stack makes the
close a no-op. -/
theorem closeWithoutAnOpenGroup : Obligations.CloseWithoutAnOpenGroup := by
  refine fun f opr s hinit => ⟨fun hd => ?counted, fun hd hs => ?empty⟩
  case counted =>
    have hne : s.edisc ≠ 0#16 := fun h => absurd (congrArg BitVec.toNat h) hd.ne'
    rw [exec_of_init _ hinit, effectOf, closeGroup_of_discard (s := s.setLine (nextLine s)) hne,
      State.setLine_edisc, sub_one_eq_ofNat hd]
    rfl
  case empty =>
    have h0 : s.edisc = 0#16 := BitVec.eq_of_toNat_eq hd
    rw [exec_of_init _ hinit, effectOf, closeGroup_of_nil (s := s.setLine (nextLine s)) h0 hs]
    rfl

theorem completeDeferred_other {e : EvalEntry} (s : State) (h1 : opField e.w ≠ 1#8)
    (h2 : opField e.w ≠ 2#8) (hbin : BinOp.ofCode (opField e.w) = none) :
    completeDeferred e s = s := by
  rcases completeDeferred_cases e s with ⟨hop, -⟩ | ⟨hop, -⟩ | ⟨op, hop, -⟩ | ⟨-, -, -, heq⟩
  · exact absurd hop h1
  · exact absurd hop h2
  · rw [hop, BinOp.ofCode_code] at hbin
    cases hbin
  · exact heq

/-- Settles O27: the popped entry defers no instruction, so completing it does nothing (the spec's
decision D19). -/
theorem closeDiscardsAnyOtherEntry : Obligations.CloseDiscardsAnyOtherEntry := by
  intro f opr s e es hinit hd hs h1 h2 hother
  rw [← toNat_opField] at h1 h2 hother
  have hbin : BinOp.ofCode (opField e.w) = none := by
    rw [← Option.not_isSome_iff_eq_none, BinOp.ofCode_isSome_iff]
    omega
  rw [exec_close_of_cons f opr hinit hd hs, completeDeferred_other _
    (fun h => h1 (congrArg BitVec.toNat h)) (fun h => h2 (congrArg BitVec.toNat h)) hbin]
  rfl

/-! ## A group from its open to its close -/

theorem init_of_exec {i : Instr} {s t : State} (hx : exec i s = .next t) : s.init = true :=
  (exec_eq_next.mp hx).1

/-- Settles O28: the open saves the LOAD's own word, and its close reads the cell the direct LOAD reads,
inverted by the same flag. -/
theorem groupedLoadLoadsLikeDirectLoad : Obligations.GroupedLoadLoadsLikeDirectLoad := by
  intro f g h opr o s t v hroom hd hopen hinit hestk hedisc hfi hfn
  have hpush := exec_of_groupOpen_room (i := .loadGroup f opr) rfl (init_of_exec hopen) hroom
  cases hopen.symm.trans hpush
  have hop : (irWord 1#8 f).toNat % 256 = 1 := by rw [← toNat_opField, opField_irWord]; rfl
  have hneg : (irWord 1#8 f).getLsbD 9 = f.fn := congrArg FlagBits.fn (flagBitsOf_irWord 1#8 f)
  refine ⟨_, _, closeCompletesDeferredLoad g o v _ s.estk hinit (hedisc.trans hd) hestk hop,
    loadReadsLiteralOrCell h v.acc v hinit, ?_, rfl⟩
  simp only [hneg, hfi, hfn, if_neg Bool.false_ne_true]

/-- Settles O29: the refused open only counts up to 65535, and the close only counts down again. -/
theorem refusedGroupIsDiscardedByItsClose : Obligations.RefusedGroupIsDiscardedByItsClose := by
  intro i g o s t v hfull hg hop hwf hopen hinit hestk hedisc
  obtain ⟨w, heff⟩ := effectOf_opens hwf hg hop (s.setLine (nextLine s))
  have hcount := exec_of_groupOpen_full heff (init_of_exec hopen) hfull.ge
  cases hopen.symm.trans hcount
  have hv : v.edisc.toNat = min (s.edisc.toNat + 1) 65535 :=
    (congrArg BitVec.toNat hedisc).trans (ediscUp_toNat s.edisc)
  obtain ⟨hclose, -⟩ := closeWithoutAnOpenGroup g o v hinit
  refine ⟨rfl, rfl, rfl, rfl, _, hclose (by omega), hestk, rfl, ?_, rfl, rfl⟩
  simp only [BitVec.toNat_ofNat]
  omega

end Sys2Proof.Machine

/-! # A subroutine from its CALL to its RET -/

namespace Sys2Proof.Machine

/-- Settles O38: the CALL pushes its next line, and the RET pops it. -/
theorem retResumesAfterCall : Obligations.RetResumesAfterCall := by
  intro f g opr o s t v hf hg hroom hcall hinit hcstk
  obtain ⟨htaken, -, -⟩ := callPushesTheNextLine f opr s (init_of_exec hcall)
  cases hcall.symm.trans (htaken (.inl hf) hroom)
  obtain ⟨hpop, -, -⟩ := retPopsTheCallStack g o v hinit
  exact ⟨rfl, _, hpop _ _ (.inl hg) hcstk, rfl, rfl⟩

end Sys2Proof.Machine

/-! # What an instruction leaves unchanged

An instruction writes data only, or the next line and the call stack only. Of the cells it writes at most
the one at `storeTarget` (20_memory.md R43). -/

namespace Sys2Proof.Machine

/-! ## Control state and the two stacks -/

theorem State.DataOnly.cstk {s t : State} (h : s.DataOnly t) : t.cstk = s.cstk :=
  (congrArg State.cstk h :)

theorem State.DataOnly.control {s t : State} (h : s.DataOnly t) :
    t.init = s.init ∧ t.seq = s.seq ∧ t.prog = s.prog ∧ t.pending = s.pending ∧ t.reply = s.reply := by
  rw [State.DataOnly] at h
  rw [h]
  exact ⟨rfl, rfl, rfl, rfl, rfl⟩

theorem State.TransferOnly.control {s t : State} (h : s.TransferOnly t) :
    t.init = s.init ∧ t.seq = s.seq ∧ t.prog = s.prog ∧ t.pending = s.pending ∧ t.reply = s.reply := by
  rw [State.TransferOnly] at h
  rw [h]
  exact ⟨rfl, rfl, rfl, rfl, rfl⟩

theorem State.TransferOnly.mem {s t : State} (h : s.TransferOnly t) : t.mem = s.mem :=
  (congrArg State.mem h :)

theorem State.TransferOnly.data {s t : State} (h : s.TransferOnly t) :
    t.estk = s.estk ∧ t.edisc = s.edisc ∧ t.acc = s.acc ∧ t.mem = s.mem := by
  rw [State.TransferOnly] at h
  rw [h]
  exact ⟨rfl, rfl, rfl, rfl⟩

/-- Settles O40: neither kind of effect writes any of the five fields. -/
theorem instructionsKeepControlState : Obligations.InstructionsKeepControlState := by
  intro i s t hx
  obtain ⟨-, rfl⟩ := exec_eq_next.mp hx
  cases hi : i.isTransfer with
  | false => exact (effectOf_dataOnly hi (s.setLine _)).control
  | true => exact (effectOf_transferOnly hi (s.setLine _)).control

theorem effectOf_cstk {i : Instr} (hi : i.usesCallStack = false) (s : State) :
    (effectOf i s).cstk = s.cstk := by
  cases i with
  | jump f opr => exact iteInduction (motive := (State.cstk · = s.cstk)) (fun _ => rfl) fun _ => rfl
  | call f opr | ret f opr => cases hi
  | _ => exact (effectOf_dataOnly (by rfl) s).cstk

/-- Settles O41: of the transfers only CALL and RET write the call stack, and no transfer writes data. -/
theorem transfersAndGroupsKeepApart : Obligations.TransfersAndGroupsKeepApart := by
  intro i s t hx
  obtain ⟨-, rfl⟩ := exec_eq_next.mp hx
  exact ⟨fun hi => effectOf_cstk hi (s.setLine _),
    fun hi => (effectOf_transferOnly hi (s.setLine _)).data⟩

/-! ## The cells -/

theorem groupOpen_mem (w v : Word) (s : State) : (groupOpen w v s).mem = s.mem := by
  rcases groupOpen_cases w v s with ⟨-, heq⟩ | ⟨-, heq⟩ <;> rw [heq] <;> rfl

theorem binaryOp_mem (op : BinOp) (f : FlagBits) (opr : Word) (s : State) :
    (binaryOp op f opr s).mem = s.mem := by
  rcases binaryOp_cases op f opr s with ⟨-, heq⟩ | ⟨-, heq⟩ <;> rw [heq]
  · exact groupOpen_mem _ _ s
  · rfl

theorem completeDeferred_mem {e : EvalEntry} (s : State) (hop : opField e.w ≠ 2#8) :
    (completeDeferred e s).mem = s.mem := by
  rcases completeDeferred_cases e s with ⟨-, heq⟩ | ⟨hstor, -⟩ | ⟨_, -, heq⟩ | ⟨-, -, -, heq⟩
  · rw [heq]; rfl
  · exact absurd hstor hop
  · rw [heq]; rfl
  · rw [heq]

/-- From `s` the cells become `m` by one `MemSet` at the given address, or stay where there is none. -/
def StoredAt (target : Option Word) (s : State) (m : Memory) : Prop :=
  match target with
  | none => m = s.mem
  | some a => ∃ v inv, m = memSet s.mem a v inv

/-- A close stores only for a deferred STOR, at the group's result (45_close_group.md R116). -/
theorem closeGroup_storedAt (f : FlagBits) (opr : Word) (s : State) :
    StoredAt (storeTarget (.close f opr) s) s (closeGroup s).mem := by
  rcases closeGroup_cases s with ⟨hne, heq⟩ | ⟨-, hs, heq⟩ | ⟨hd, e, es, hs, heq⟩
  · have hnone : storeTarget (.close f opr) s = none := by
      simp only [storeTarget]
      split
      · rfl
      · exact if_neg fun h => hne h.1
    rw [hnone, heq]
    rfl
  · rw [storeTarget, hs, heq]
    rfl
  · simp only [storeTarget, hs, heq, hd, true_and]
    split <;> rename_i hop
    · rw [completeDeferred_stor _ hop]
      exact ⟨_, _, rfl⟩
    · exact completeDeferred_mem _ hop

theorem testedStore_storedAt (f : FlagBits) (opr v : Word) (s : State) :
    StoredAt (if accCond s f.fn then some opr else none) s (testedStore f opr v s).mem := by
  cases htest : accCond s f.fn with
  | true =>
    rw [testedStore_of_test opr v htest]
    exact ⟨v, false, rfl⟩
  | false =>
    rw [testedStore_of_not_test opr v htest]
    rfl

/-- What any instruction does to the cells. -/
theorem effectOf_storedAt (i : Instr) (s : State) :
    StoredAt (storeTarget i s) s (effectOf i s).mem := by
  cases i with
  | stor f opr => exact ⟨s.acc, f.fn, rfl⟩
  | set f opr => exact testedStore_storedAt f opr 1#16 s
  | rst f opr => exact testedStore_storedAt f opr 0#16 s
  | close f opr => exact closeGroup_storedAt f opr s
  | nop f opr | load f opr => rfl
  | loadGroup f opr | storGroup f opr => exact groupOpen_mem _ _ s
  | and f opr | or f opr | xor f opr | add f opr | sub f opr | mul f opr | div f opr
  | gt f opr | ge f opr | eq f opr | ne f opr | le f opr | lt f opr => exact binaryOp_mem _ f opr s
  | jump f opr | call f opr | ret f opr =>
    exact (effectOf_transferOnly (by rfl) s).mem

theorem storeTarget_setLine (i : Instr) (s : State) (l : Word) :
    storeTarget i (s.setLine l) = storeTarget i s := by cases i <;> rfl

/-- Settles O42: the cells change by at most one `MemSet` at the store target, which writes no other
cell and none at an invalid address. -/
theorem cellsChangeOnlyAtTheStoreTarget : Obligations.CellsChangeOnlyAtTheStoreTarget := by
  intro i s t hx
  obtain ⟨-, rfl⟩ := exec_eq_next.mp hx
  have hstored := effectOf_storedAt i (s.setLine (s.line + 1#16))
  rw [storeTarget_setLine] at hstored
  refine ⟨fun hnone => ?none, fun a hsome => ?some⟩
  case none =>
    rw [hnone] at hstored
    exact hstored
  case some =>
    rw [hsome] at hstored
    obtain ⟨v, inv, hmem⟩ := hstored
    exact ⟨fun ha => hmem.trans (memSet_invalid s.mem v inv ha),
      fun k hk => hmem ▸ memSet_read_ne s.mem a v inv hk⟩

end Sys2Proof.Machine

/-! # The step of the block and its host

A step is the sequencer's, or the next host operation's where R83 allows it, or it is refused. With
`INIT` = 1 only a host operation can be refused; with `INIT` = 0 everything that executes is. -/

namespace Sys2Proof.Machine

/-! ## The step, by the next host operation -/

theorem step_of_none_pending {s : State} (hp : s.pending = []) : step s = sequencerStep s := by
  rcases step_cases s with ⟨-, heq⟩ | ⟨_, _, hcons, -⟩ | ⟨_, _, hcons, -⟩
  · exact heq
  · cases hp.symm.trans hcons
  · cases hp.symm.trans hcons

theorem step_of_not_allowed_run {s : State} {op : HostOp} {rest : List HostOp}
    (hp : s.pending = op :: rest) (ha : op.allowed s = false) (hseq : s.seq = .run) :
    step s = sequencerStep s := by simp [step, hostStep, hp, ha, hseq]

theorem step_of_not_allowed_idle {s : State} {op : HostOp} {rest : List HostOp}
    (hp : s.pending = op :: rest) (ha : op.allowed s = false) (hseq : s.seq = .idle) :
    step s = .refused .notInitialised := by simp [step, hostStep, hp, ha, hseq]

theorem step_of_quiet {s : State} (hquiet : s.hostQuiet = true) (hseq : s.seq = .run) :
    step s = sequencerStep s := by
  cases hp : s.pending with
  | nil => exact step_of_none_pending hp
  | cons op rest =>
    rw [State.hostQuiet, hp] at hquiet
    exact step_of_not_allowed_run hp ((Bool.not_eq_true' _).mp hquiet) hseq

/-! ## The sequencer's step -/

theorem sequencerStep_of_idle {s : State} (hseq : s.seq = .idle) : sequencerStep s = .next s := by
  rw [sequencerStep, hseq]

theorem sequencerStep_of_line {s : State} {l : ProgLine} (hseq : s.seq = .run)
    (hl : s.prog[s.line.toNat]? = some l) : sequencerStep s = exec (decodeLine l.w l.opr) s := by
  simp only [sequencerStep, hseq, hl]

theorem sequencerStep_of_end {s : State} (hseq : s.seq = .run) (hend : s.progLen ≤ s.line.toNat) :
    sequencerStep s = .next (s.setSeq .idle) := by
  simp only [sequencerStep, hseq, List.getElem?_eq_none hend]

/-- Settles O48: both are the sequencer's step at a line of the program. -/
theorem stepRunsTheDecodedLine : Obligations.StepRunsTheDecodedLine := by
  refine fun s l hseq hl => ⟨fun hquiet => ?quiet, fun rest hp => ?pass⟩
  case quiet => rw [step_of_quiet hquiet hseq, sequencerStep_of_line hseq hl]
  case pass =>
    rw [step_of_pass hp, sequencerStep_of_line (s := s.setPending rest) hseq hl]
    rfl

/-- Settles O49: all three are the sequencer's step where `LINE` has no line; no program is long enough
to hold one at the sentinel. -/
theorem scanEndsAtOrBeyondProgramLength : Obligations.ScanEndsAtOrBeyondProgramLength := by
  refine ⟨fun s hseq hend => ⟨fun hquiet => ?quiet, fun rest hp => ?pass⟩,
    fun s hseq hquiet hlen hline => ?sentinel⟩
  case quiet => exact (step_of_quiet hquiet hseq).trans (sequencerStep_of_end hseq hend)
  case pass =>
    exact (step_of_pass hp).trans (sequencerStep_of_end (s := s.setPending rest) hseq hend)
  case sentinel =>
    have hend : s.progLen ≤ s.line.toNat := hline ▸ hlen
    exact (step_of_quiet hquiet hseq).trans (sequencerStep_of_end hseq hend)

/-- Settles O51: both are the step of an idle sequencer. -/
theorem idleBlockKeepsItsState : Obligations.IdleBlockKeepsItsState :=
  fun s hseq =>
    ⟨fun hp => (step_of_none_pending hp).trans (sequencerStep_of_idle hseq),
      fun rest hp => (step_of_pass hp).trans (sequencerStep_of_idle (s := s.setPending rest) hseq)⟩

/-! ## Refusals -/

theorem execute_of_not_init {g : State → State} {s : State} (h : s.init = false) :
    execute g s = .refused .notInitialised := if_neg (ne_true_of_eq_false h)

/-- Settles O43: no effect is reached with `INIT` = 0, and R83 does not allow the two operations. -/
theorem executionIsRefusedBeforeInit : Obligations.ExecutionIsRefusedBeforeInit := by
  refine ⟨fun i s hinit => ?instruction, fun s w opr line rest hinit hseq hp => ?operation⟩
  case instruction => rw [exec_eq_execute, execute_of_not_init hinit]
  case operation =>
    rcases hp with hp | hp
    · exact step_of_not_allowed_idle hp (by simp [HostOp.allowed, hinit]) hseq
    · exact step_of_not_allowed_idle hp (by simp [HostOp.allowed, hinit]) hseq

theorem sequencerStep_completes {s : State} (hinit : s.init = true) :
    ∃ t, sequencerStep s = .next t := by
  rcases sequencerStep_cases s with ⟨-, heq⟩ | ⟨-, -, heq⟩ | ⟨l, -, -, heq⟩ <;> rw [heq]
  · exact ⟨_, rfl⟩
  · exact ⟨_, rfl⟩
  · exact ⟨_, exec_of_init _ hinit⟩

theorem hostEffect_completes {op : HostOp} {s : State} (hinit : s.init = true)
    (hlen : ∀ lines, op = .replaceProgram lines → lines.length ≤ Config.maxProgLen) :
    ∃ t, hostEffect op s = .next t := by
  cases op with
  | execute w opr line =>
    exact ⟨_, directExecute_eq_next.mpr ⟨_, exec_of_init (s := s.setLine line) _ hinit, rfl⟩⟩
  | replaceProgram lines => exact ⟨_, if_pos (hlen lines rfl)⟩
  | pass => exact sequencerStep_completes hinit
  | _ => exact ⟨_, rfl⟩

/-- Once it is initialised, an idle block allows every operation (40_engine.md R83). -/
theorem allowed_of_idle (op : HostOp) {s : State} (hseq : s.seq = .idle) (hinit : s.init = true) :
    op.allowed s = true := by
  cases op <;> simp [HostOp.allowed, hseq, hinit]

/-- Settles O44: the sequencer's step and every allowed operation complete, and while IDLE every
operation is allowed. -/
theorem noStepOfAnInitialisedBlockStops : Obligations.NoStepOfAnInitialisedBlockStops := by
  intro s hinit hlen
  rcases step_cases s with ⟨-, heq⟩ | ⟨op, rest, hp, -, heq⟩ | ⟨op, rest, -, ha, hseq, -⟩
  · rw [heq]
    exact sequencerStep_completes hinit
  · rw [heq]
    refine hostEffect_completes (s := s.setPending rest) hinit fun lines hop => hlen lines ?_
    rw [hp, hop]
    exact List.mem_cons_self
  · exact absurd (allowed_of_idle op hseq hinit) (ne_true_of_eq_false ha)

/-! ## What the host writes -/

theorem allowed_writeCell {s : State} (a v : Word)
    (h : s.seq = .idle ∨ Config.hostMemInterleave = true) :
    (HostOp.writeCell a v).allowed s = true := by simpa [HostOp.allowed] using h

/-- Settles O56: where R83 allows the write it is one `MemSet`, and in RUN without
`HOST_MEM_INTERLEAVE` the sequencer takes its step. -/
theorem hostWritesCellsOnlyWhereAllowed : Obligations.HostWritesCellsOnlyWhereAllowed := by
  refine fun s a v rest hp => ⟨fun hwhere => ?written, fun l hseq hl => ?waits⟩
  case written =>
    exact ⟨_, step_of_allowed hp (allowed_writeCell a v hwhere), rfl,
      memSet_cellStored s.mem a v false⟩
  case waits =>
    cases hmem : Config.hostMemInterleave with
    | true => exact .inl rfl
    | false =>
      have ha : (HostOp.writeCell a v).allowed s = false := by simp [HostOp.allowed, hseq, hmem]
      rw [step_of_not_allowed_run hp ha hseq, sequencerStep_of_line hseq hl]
      exact .inr rfl

theorem allowed_replaceProgram {s : State} (lines : List ProgLine) (hseq : s.seq = .idle) :
    (HostOp.replaceProgram lines).allowed s = true := beq_iff_eq.mpr hseq

theorem sequencerStep_keeps_prog_init {s t : State} (hx : sequencerStep s = .next t) :
    t.prog = s.prog ∧ t.init = s.init := by
  rcases sequencerStep_cases s with ⟨-, heq⟩ | ⟨-, -, heq⟩ | ⟨l, -, -, heq⟩ <;> rw [heq] at hx
  · cases hx
    exact ⟨rfl, rfl⟩
  · cases hx
    exact ⟨rfl, rfl⟩
  · obtain ⟨hinit, -, hprog, -, -⟩ := instructionsKeepControlState _ s t hx
    exact ⟨hprog, hinit⟩

/-- The operations that R83 allows in RUN write neither the program nor `INIT`. -/
theorem hostEffect_run_keeps_prog_init {op : HostOp} {s t : State} (ha : op.allowed s = true)
    (hseq : s.seq = .run) (hx : hostEffect op s = .next t) : t.prog = s.prog ∧ t.init = s.init := by
  cases op with
  | init provider | startScan | execute w opr line | replaceProgram lines =>
    simp [HostOp.allowed, hseq] at ha
  | getAccumulator | parse token | writeCell addr v =>
    cases hx
    exact ⟨rfl, rfl⟩
  | pass => exact sequencerStep_keeps_prog_init hx

/-- Settles O57: while IDLE the new program is stored or refused by its length, and whatever a step in
RUN does keeps program and `INIT`. -/
theorem programChangesOnlyWhileIdle : Obligations.ProgramChangesOnlyWhileIdle := by
  refine ⟨fun s lines rest hp hseq hlen => ?stored, fun s lines rest hp hseq hlen => ?refused,
    fun s t hseq hx => ?run⟩
  case stored => exact (step_of_allowed hp (allowed_replaceProgram lines hseq)).trans (if_pos hlen)
  case refused =>
    exact (step_of_allowed hp (allowed_replaceProgram lines hseq)).trans (if_neg hlen.not_ge)
  case run =>
    rcases step_cases s with ⟨-, heq⟩ | ⟨op, rest, -, ha, heq⟩ | ⟨_, _, -, -, -, heq⟩ <;> rw [heq] at hx
    · exact sequencerStep_keeps_prog_init hx
    · rw [← HostOp.allowed_setPending op s rest] at ha
      exact hostEffect_run_keeps_prog_init (s := s.setPending rest) ha hseq hx
    · cases hx

end Sys2Proof.Machine

/-! # The state after reset, and words of the spec's table -/

namespace Sys2Proof.Machine

/-- Settles O46: the stacks and the program are empty, `EDISC` is 0 and the block is IDLE. -/
theorem resetMeetsTheInvariant : Obligations.ResetMeetsTheInvariant where
  evalDepth := Nat.zero_le _
  evalEntries := nofun
  callDepth := Nat.zero_le _
  discards := fun hne => absurd rfl hne
  memWf := reset_mem_wf
  progLen := Nat.zero_le _
  running := nofun

/-- Settles O47, by the definition of `State.reset`. -/
theorem resetLeavesTheSpecsValues : Obligations.ResetLeavesTheSpecsValues :=
  ⟨rfl, rfl, rfl, rfl, rfl, rfl⟩

/-- Settles O4: each word is evaluated by the decoder. -/
theorem wordsOfTheSpecDecode : Obligations.WordsOfTheSpecDecode :=
  ⟨rfl, rfl, rfl, rfl, rfl, rfl⟩

end Sys2Proof.Machine

/-! # The bits of a line that count

Clearing bits of a line and of the saved words is one simulation: the instruction with the cleared bits,
run from the state with the cleared saved words, does what the instruction does, up to those bits. It
needs that a close reads of a saved word only the opcode and the Negate bit, which both masks keep. -/

namespace Sys2Proof

/-! ## Masked words -/

/-- The flag bits set in both of two words (`flagBitsOf_and`). -/
def FlagBits.inter (f g : FlagBits) : FlagBits :=
  ⟨f.rsv &&& g.rsv, f.fg && g.fg, f.fc && g.fc, f.fn && g.fn, f.fi && g.fi⟩

/-- The flag bits with the reserved field cleared. -/
def FlagBits.unreserved (f : FlagBits) : FlagBits := { f with rsv := 0#4 }

theorem opField_and (v w : Word) : opField (v &&& w) = opField v &&& opField w :=
  BitVec.extractLsb'_and

theorem flagBitsOf_and (v w : Word) :
    flagBitsOf (v &&& w) = (flagBitsOf v).inter (flagBitsOf w) := by
  simp only [flagBitsOf, FlagBits.inter, BitVec.extractLsb'_and, BitVec.getLsbD_and]

theorem irWord_and (op : BitVec 8) (f : FlagBits) (w : Word) :
    irWord op f &&& w = irWord (op &&& opField w) (f.inter (flagBitsOf w)) := by
  rw [← irWord_fields (irWord op f &&& w), opField_and, flagBitsOf_and, opField_irWord,
    flagBitsOf_irWord]

/-- Bits 11:0 are all flags and the opcode, and bits 15:12 the reserved field. -/
theorem FlagBits.inter_lineMask (f : FlagBits) :
    f.inter (flagBitsOf 0x0FFF#16) = f.unreserved := by
  have hmask : flagBitsOf 0x0FFF#16 = ⟨0#4, true, true, true, true⟩ := rfl
  simp [hmask, FlagBits.inter, FlagBits.unreserved]

/-- Of the flag bits, `0x02FF` keeps the Negate bit. -/
theorem FlagBits.inter_deferralMask (f : FlagBits) :
    f.inter (flagBitsOf 0x02FF#16) = ⟨0#4, false, false, f.fn, false⟩ := by
  have hmask : flagBitsOf 0x02FF#16 = ⟨0#4, false, false, true, false⟩ := rfl
  simp [hmask, FlagBits.inter]

theorem irWord_unreserved (op : BitVec 8) (f : FlagBits) :
    irWord op f.unreserved = irWord op f &&& 0x0FFF#16 := by
  have hop : op &&& opField 0x0FFF#16 = op := BitVec.and_allOnes
  rw [irWord_and, FlagBits.inter_lineMask, hop]

theorem irWord_and_deferralMask (op : BitVec 8) {f g : FlagBits} (hfn : g.fn = f.fn) :
    irWord op g &&& 0x02FF#16 = irWord op f &&& 0x02FF#16 := by
  rw [irWord_and, irWord_and, FlagBits.inter_deferralMask, FlagBits.inter_deferralMask, hfn]

end Sys2Proof

namespace Sys2Proof.Machine

/-- The mask keeps what a close reads of a saved word (45_close_group.md R115 to R118): the opcode and
the Negate bit. -/
def KeepsDeferral (m : Word) : Prop := opField m = BitVec.allOnes 8 ∧ (flagBitsOf m).fn = true

theorem keepsDeferral_lineMask : KeepsDeferral 0x0FFF#16 := ⟨rfl, rfl⟩

theorem keepsDeferral_deferralMask : KeepsDeferral 0x02FF#16 := ⟨rfl, rfl⟩

theorem KeepsDeferral.opField_and {m : Word} (hm : KeepsDeferral m) (w : Word) :
    opField (w &&& m) = opField w := by
  obtain ⟨hop, -⟩ := hm
  rw [Sys2Proof.opField_and, hop, BitVec.and_allOnes]

theorem KeepsDeferral.fn_and {m : Word} (hm : KeepsDeferral m) (w : Word) :
    (flagBitsOf (w &&& m)).fn = (flagBitsOf w).fn := by
  obtain ⟨-, hfn⟩ := hm
  rw [flagBitsOf_and, FlagBits.inter, hfn, Bool.and_true]

/-! ## Masked states -/

@[simp] theorem State.masked_masked (s : State) (m : Word) : (s.masked m).masked m = s.masked m := by
  have hentry : EvalEntry.masked m ∘ EvalEntry.masked m = EvalEntry.masked m := by
    funext e
    simp [EvalEntry.masked, BitVec.and_assoc]
  simp only [State.masked, State.setEstk, List.map_map, hentry]

section
variable {m : Word} (s : State)

/-- A group open on a masked stack saves the masked word. -/
theorem groupOpen_masked (w v : Word) :
    groupOpen (w &&& m) v (s.masked m) = (groupOpen w v s).masked m := by
  have hesp : (s.masked m).esp = s.esp := List.length_map _
  rcases groupOpen_cases w v s with ⟨hroom, heq⟩ | ⟨hfull, heq⟩ <;> rw [heq]
  · rw [groupOpen_of_room _ v (hesp ▸ hroom)]
    rfl
  · rw [groupOpen_of_full _ v (hesp ▸ hfull)]
    rfl

/-- Up to the mask it does not matter which of two words with the same masked bits is saved. -/
theorem groupOpen_masked_congr {w x : Word} (v : Word) (hw : x &&& m = w &&& m) :
    (groupOpen x v (s.masked m)).masked m = (groupOpen w v s).masked m := by
  rw [← groupOpen_masked (s.masked m), State.masked_masked, hw, groupOpen_masked]

/-- What the popped entry does reads no other saved word. -/
theorem completeDeferred_masked (hm : KeepsDeferral m) (e : EvalEntry) :
    completeDeferred (e.masked m) (s.masked m) = (completeDeferred e s).masked m := by
  simp only [completeDeferred, EvalEntry.masked, hm.opField_and, hm.fn_and]
  split
  · rfl
  · rfl
  · split <;> rfl

/-- A close of a masked stack is the close, with the same bits cleared. -/
theorem closeGroup_masked (hm : KeepsDeferral m) :
    closeGroup (s.masked m) = (closeGroup s).masked m := by
  rcases closeGroup_cases s with ⟨hne, heq⟩ | ⟨hd, hs, heq⟩ | ⟨hd, e, es, hs, heq⟩ <;> rw [heq]
  · rw [closeGroup_of_discard (s := s.masked m) hne]
    rfl
  · exact closeGroup_of_nil (s := s.masked m) hd (congrArg _ hs)
  · have hcons : (s.masked m).estk = e.masked m :: es.map (EvalEntry.masked m) := congrArg _ hs
    rw [closeGroup_of_cons (s := s.masked m) hd hcons]
    exact completeDeferred_masked (s.setEstk es) hm e

theorem callLine_masked (opr : Word) : callLine opr (s.masked m) = (callLine opr s).masked m := by
  rcases callLine_cases opr s with ⟨hroom, heq⟩ | ⟨hfull, heq⟩ <;> rw [heq]
  · exact callLine_of_room (s := s.masked m) opr hroom
  · exact callLine_of_full (s := s.masked m) opr hfull

theorem returnLine_masked : returnLine (s.masked m) = (returnLine s).masked m := by
  rcases returnLine_cases s with ⟨hs, heq⟩ | ⟨l, ls, hs, heq⟩ <;> rw [heq]
  · exact returnLine_of_nil (s := s.masked m) hs
  · exact returnLine_of_cons (s := s.masked m) hs

/-- A transfer under its gate reads and writes no saved word. -/
theorem gated_masked {f g : FlagBits} {act : State → State} (hgate : gate s g = gate s f)
    (hact : act (s.masked m) = (act s).masked m) :
    gated g act (s.masked m) = (gated f act s).masked m := by
  have hmask : gate (s.masked m) g = gate s f := hgate
  rw [gated, gated, hmask, hact]
  exact (apply_ite (State.masked · m) (gate s f = true) _ _).symm

theorem testedStore_masked {f g : FlagBits} (opr v : Word) (hfn : g.fn = f.fn) :
    testedStore g opr v (s.masked m) = (testedStore f opr v s).masked m := by
  have hmask : accCond (s.masked m) g.fn = accCond s f.fn := congrArg (accCond s) hfn
  rw [testedStore, testedStore, hmask]
  exact (apply_ite (State.masked · m) (accCond s f.fn = true) (store opr v false s) s).symm

end

/-! ## The reserved field -/

theorem binaryOp_unreserved (op : BinOp) (f : FlagBits) (opr : Word) (s : State) :
    binaryOp op f.unreserved opr (s.masked 0x0FFF#16) = (binaryOp op f opr s).masked 0x0FFF#16 := by
  cases hg : f.fg with
  | true =>
    rw [binaryOp_of_group op opr s hg, binaryOp_of_group op (f := f.unreserved) opr _ hg,
      irWord_unreserved]
    exact groupOpen_masked s _ _
  | false =>
    rw [binaryOp_of_not_group op opr s hg, binaryOp_of_not_group op (f := f.unreserved) opr _ hg]
    rfl

theorem groupOpen_unreserved (op : BitVec 8) (f : FlagBits) (opr : Word) (s : State) :
    groupOpen (irWord op f.unreserved) opr (s.masked 0x0FFF#16) =
      (groupOpen (irWord op f) opr s).masked 0x0FFF#16 := by
  rw [irWord_unreserved]
  exact groupOpen_masked s _ opr

/-- The line with bits 15:12 cleared has the effect of the line, with those bits cleared in the saved
words. -/
theorem effectOf_decodeLine_lineMask (w opr : Word) (s : State) :
    effectOf (decodeLine (w &&& 0x0FFF#16) opr) (s.masked 0x0FFF#16) =
      (effectOf (decodeLine w opr) s).masked 0x0FFF#16 := by
  have hflags : flagBitsOf (w &&& 0x0FFF#16) = (flagBitsOf w).unreserved := by
    rw [flagBitsOf_and, FlagBits.inter_lineMask]
  simp only [decodeLine, keepsDeferral_lineMask.opField_and, hflags]
  generalize flagBitsOf w = f
  split
  case h_1 | h_2 =>
    have hfg : f.unreserved.fg = f.fg := rfl
    cases hg : f.fg <;> simp only [hfg, hg]
    · rfl
    · exact groupOpen_unreserved _ f opr s
  case h_3 | h_4 => exact testedStore_masked s opr _ rfl
  case h_18 => exact gated_masked s (act := (State.setLine · opr)) rfl rfl
  case h_19 => exact gated_masked s rfl (callLine_masked s opr)
  case h_20 => exact gated_masked s rfl (returnLine_masked s)
  case h_21 => exact closeGroup_masked s keepsDeferral_lineMask
  case h_22 => rfl
  all_goals exact binaryOp_unreserved _ f opr s

/-- Settles O5, by `effectOf_decodeLine_lineMask` at the state whose line is the next one. -/
theorem reservedBitsHaveNoEffect : Obligations.ReservedBitsHaveNoEffect := by
  intro w opr s t hx
  obtain ⟨hinit, rfl⟩ := exec_eq_next.mp hx
  exact exec_eq_next.mpr ⟨hinit, (effectOf_decodeLine_lineMask w opr _).symm⟩

/-! ## The flags that R57 does not mark -/

theorem binaryOp_effective (op : BinOp) (f : FlagBits) (opr : Word) (s : State) :
    (binaryOp op ⟨0#4, f.fg, false, f.fn, f.fi⟩ opr (s.masked 0x02FF#16)).masked 0x02FF#16 =
      (binaryOp op f opr s).masked 0x02FF#16 := by
  cases hg : f.fg with
  | true =>
    rw [binaryOp_of_group op opr s hg, binaryOp_of_group op opr _ rfl]
    exact groupOpen_masked_congr s _ (irWord_and_deferralMask op.code rfl)
  | false =>
    rw [binaryOp_of_not_group op opr s hg, binaryOp_of_not_group op opr _ rfl]
    exact State.masked_masked (s.setAcc _) _

/-- N counts for a LOAD only without I, whose literal is taken as it is. -/
theorem loadValue_effective (f : FlagBits) (opr : Word) (s : State) :
    loadValue ⟨0#4, f.fg, false, f.fn && !f.fi, f.fi⟩ opr s = loadValue f opr s := by
  cases hfi : f.fi <;> simp [loadValue, hfi]

/-- N counts for a transfer only with C, without which the gate is always true. -/
theorem gate_effective (f : FlagBits) (s : State) :
    gate s ⟨0#4, false, f.fc, f.fn && f.fc, false⟩ = gate s f := by
  cases hfc : f.fc <;> simp [gate, hfc]

/-- An exact simulation holds up to the mask. -/
theorem masked_of_eq {m : Word} {t u : State} (h : u = t.masked m) : u.masked m = t.masked m := by
  rw [h, State.masked_masked]

theorem effectOf_effective (i : Instr) (s : State) :
    (effectOf i.effective (s.masked 0x02FF#16)).masked 0x02FF#16 =
      (effectOf i s).masked 0x02FF#16 := by
  cases i with
  | nop f opr => exact State.masked_masked s _
  | load f opr =>
    exact masked_of_eq (congrArg (s.masked 0x02FF#16).setAcc (loadValue_effective f opr s))
  | stor f opr => exact State.masked_masked (store opr s.acc f.fn s) _
  | loadGroup f opr | storGroup f opr =>
    exact groupOpen_masked_congr s opr (irWord_and_deferralMask _ rfl)
  | set f opr | rst f opr => exact masked_of_eq (testedStore_masked s opr _ rfl)
  | and f opr | or f opr | xor f opr | add f opr | sub f opr | mul f opr | div f opr
  | gt f opr | ge f opr | eq f opr | ne f opr | le f opr | lt f opr =>
    exact binaryOp_effective _ f opr s
  | jump f opr =>
    exact masked_of_eq (gated_masked s (act := (State.setLine · opr)) (gate_effective f s) rfl)
  | call f opr => exact masked_of_eq (gated_masked s (gate_effective f s) (callLine_masked s opr))
  | ret f opr => exact masked_of_eq (gated_masked s (gate_effective f s) (returnLine_masked s))
  | close f opr => exact masked_of_eq (closeGroup_masked s keepsDeferral_deferralMask)

/-- Settles O6, by `effectOf_effective` at the state whose line is the next one. -/
theorem unmarkedFlagsHaveNoEffect : Obligations.UnmarkedFlagsHaveNoEffect := by
  intro i s t hx
  obtain ⟨hinit, rfl⟩ := exec_eq_next.mp hx
  exact ⟨_, exec_eq_next.mpr ⟨hinit, rfl⟩, effectOf_effective i (s.setLine (s.line + 1#16))⟩

end Sys2Proof.Machine
